-- ==== Sys2Proof/Word.lean ====
section
/-! DEFINITION. The word types of the hardware. -/

namespace Sys2Proof

/-- A byte: 8 bits, unsigned (R40). -/
abbrev Byte := BitVec 8

/-- The 16-bit value `v` of a back-reference token (R41), the only quantity wider than a byte
that is read from or written to memory. -/
abbrev Half := BitVec 16

end Sys2Proof
end

