-- ==== Sys2Proof/Machine/Types.lean ====
section
/-! DEFINITION. The plain data types that the state is made of: status and error names, the error
record, the working latches, and memory. -/

namespace Sys2Proof.Machine

open Sys2Proof

/-- The two blocks (R1). -/
inductive BlockId where
  | decoder
  | encoder
deriving DecidableEq, Repr

/-- The four address spaces (R35). -/
inductive Space where
  | input
  | out
  | raw
  | code
deriving DecidableEq, Repr

/-- `status` of a block (R18, R24). -/
inductive Status where
  | idle
  | run
  | done
  | err
deriving DecidableEq, Repr, Inhabited

/-- `err` of a block (R19, R24): the two errors of R125 and none. -/
inductive ErrCode where
  | none
  | corruptStream
  | outOfMemory
deriving DecidableEq, Repr, Inhabited

/-- `err_info.cause` (R133): the causes of CorruptStream (R127 to R130); `none` goes with
OutOfMemory. -/
inductive Cause where
  | none
  | distance
  | distZero
  | truncRun
  | truncBref
deriving DecidableEq, Repr, Inhabited

/-- `err_info`, the record an error leaves (R134). -/
structure ErrInfo where
  cause  : Cause
  pos    : Nat
  first  : Byte
  filled : Nat
deriving DecidableEq, Repr, Inhabited

/-- The interface state both blocks have (R13, R18, R19, R24): `status`, `err`, `err_info`. -/
structure Port where
  status  : Status
  err     : ErrCode
  errInfo : ErrInfo
deriving DecidableEq, Repr

/-- The decoder's working latches (R17), live inside one token step. -/
structure DecLatches where
  c    : BitVec 8
  v    : BitVec 16
  dist : BitVec 11
  clen : BitVec 4
  rem  : BitVec 4
deriving DecidableEq, Repr, Inhabited

/-- The encoder's working registers (R23), live inside one encoder step. `j` has the width of a
cursor, so it is a natural number (R10). -/
structure EncLatches where
  L     : BitVec 4
  j     : Nat
  k     : BitVec 4
  found : Bool
  n     : BitVec 8
  cnt   : BitVec 4
deriving DecidableEq, Repr, Inhabited

/-- One address space's contents: (address, byte) pairs, addresses strictly rising. An address
that is not listed holds no value (R16, D26). -/
abbrev Memory := List Host.Cell

end Sys2Proof.Machine
end

