-- ==== Sys2Proof/Config.lean ====
section
/-! DEFINITION. What is fixed for one machine: the constants of the token format (R9), the record
of the open size parameters (R10), and the free values that stand for what the spec leaves
unspecified (R33, R149). -/

namespace Sys2Proof.Config

open Sys2Proof.Machine

/-- DIST_MAX (R9). -/
def distMax : Nat := 2047

/-- LEN_MIN (R9). -/
def lenMin : Nat := 3

/-- LEN_MAX (R9). -/
def lenMax : Nat := 10

/-- RUN_MAX (R9). -/
def runMax : Nat := 8

/-- SPACE (R9). -/
def space : Byte := 0x20

/-- PAIR_XOR (R9). -/
def pairXor : Byte := 0x80

/-- MARGIN (R9). -/
def margin : Nat := 10

/-- The open size parameters of R10; `none` is "unbounded", the default R10 recommends. -/
structure Params where
  addrW   : Option Nat
  inCap   : Option Nat
  outCap  : Option Nat
  codeCap : Option Nat
deriving DecidableEq, Repr

/-- Every parameter at the default R10 recommends. -/
def Params.unbounded : Params := ⟨none, none, none, none⟩

/-- FREE VALUE (DESIGN CHOICE, log entry 5): what the decoder's latches hold outside the step that
sets them (R17, R33, R149). Draw `n` of the block; nothing is known of it. -/
opaque freeDecLatches : Nat → DecLatches

/-- FREE VALUE (DESIGN CHOICE, log entry 5): what the encoder's working registers hold outside the
step that sets them (R23, R33, R149). -/
opaque freeEncLatches : Nat → EncLatches

/-- FREE VALUE (DESIGN CHOICE, log entry 6): the decoder's `err_info` outside status ERR
(R19, R33, R149). -/
opaque freeDecErrInfo : Nat → ErrInfo

/-- FREE VALUE (DESIGN CHOICE, log entry 6): the encoder's `err_info` outside status ERR
(R24, R33, R149). -/
opaque freeEncErrInfo : Nat → ErrInfo

end Sys2Proof.Config
end

