-- ==== Sys2Proof/Syntax.lean ====
section
/-! DEFINITION. The decoder's instructions: one constructor per token kind of the opcode table
(R54). The table's 13 rows are these four kinds with the byte ranges of LIT and RUN cut at powers
of two (log entry 13). -/

namespace Sys2Proof

/-- A token (R12), with the operands of the assembler syntax (R71).
* `lit b`: literal, the token's own byte (R55).
* `run payload`: binary run; the count is the payload's length (R56, R59).
* `bref distance lm3`: back-reference; `lm3` is the length minus 3 (R58). Distance 0 is an encoding
  (the reserved form, R65) and so is a term.
* `spair q`: space pair; `q` is the low six bits of the second output byte (R57). -/
inductive Instr where
  | lit (b : Byte)
  | run (payload : List Byte)
  | bref (distance : BitVec 11) (lm3 : BitVec 3)
  | spair (q : BitVec 6)
deriving DecidableEq, Repr

end Sys2Proof
end

