-- ==== Sys2Proof/Machine/State.lean ====
section
/-! DEFINITION. The machine's state as plain data, the reasons a step can stop, and the state after
reset (R13 to R24, R33). -/

namespace Sys2Proof.Machine

open Sys2Proof

/-- An access outside what the spec says exists. The spec never makes one (R36 to R39, R45): every
rule checks its bounds first, so no state that meets the invariants of R34 reaches a fault. SAFE:
the model stops where the spec gives no access at all (log entry 9). -/
inductive Fault where
  /-- Raised by InRead, OutRead and RawRead (Machine/Ops.lean): the buffer of `space` holds no byte
  at `address` (R36, R37, R39, D26). Safe. -/
  | noByte (space : Space) (address : Nat)
  /-- Raised by OutAppend and CodeAppend (Machine/Ops.lean): the buffer of `space` is at its
  capacity, `filled` bytes (R38, R39). Safe. -/
  | full (space : Space) (filled : Nat)
deriving DecidableEq, Repr

/-- The reasons for which a step has no meaning. -/
inductive Refusal where
  /-- Raised by an arm of `exec` for an instruction that has no meaning yet; no arm does. Safe. -/
  | notModelled (mnemonic : String)
deriving DecidableEq, Repr

/-- The decoder (R14 to R19). `draws` is the model's own: the number of free values drawn
(log entry 5). -/
structure Decoder where
  input : Memory
  inLen : Nat
  i     : Nat
  out   : Memory
  o     : Nat
  port  : Port
  latch : DecLatches
  draws : Nat
deriving DecidableEq, Repr

/-- The encoder (R20 to R24). `draws` is the model's own (log entry 5). -/
structure Encoder where
  raw    : Memory
  rawLen : Nat
  i      : Nat
  code   : Memory
  e      : Nat
  port   : Port
  latch  : EncLatches
  draws  : Nat
deriving DecidableEq, Repr

/-- What happens next in the schedule (log entry 3): a host command to a block (R25, R26) or one
step of a block (R74, R98). -/
inductive Event where
  | start (block : BlockId) (buffer : List Byte)
  | reset (block : BlockId)
  | decoder
  | encoder
deriving DecidableEq, Repr

/-- The machine: one decoder and one encoder (R1, R144), the open size parameters (R10, log entry 4)
and the events still to come (log entry 3). -/
structure State where
  dec      : Decoder
  enc      : Encoder
  params   : Config.Params
  schedule : List Event
deriving DecidableEq, Repr

/-- A decoder after RESET (R26, R33, R147): IDLE, no error, cursors and lengths 0, buffers empty;
`err_info` and the latches unspecified, draw `n` of the free values. -/
def Decoder.afterReset (n : Nat) : Decoder where
  input := []
  inLen := 0
  i     := 0
  out   := []
  o     := 0
  port  := ⟨.idle, .none, Config.freeDecErrInfo n⟩
  latch := Config.freeDecLatches n
  draws := n + 1

/-- An encoder after RESET (R26, R33, R147). -/
def Encoder.afterReset (n : Nat) : Encoder where
  raw    := []
  rawLen := 0
  i      := 0
  code   := []
  e      := 0
  port   := ⟨.idle, .none, Config.freeEncErrInfo n⟩
  latch  := Config.freeEncLatches n
  draws  := n + 1

/-- The machine right after reset (R33, R147), with the parameters at the default R10 recommends
and no event to come. -/
def State.reset : State where
  dec      := Decoder.afterReset 0
  enc      := Encoder.afterReset 0
  params   := Config.Params.unbounded
  schedule := []

end Sys2Proof.Machine
end

