-- ==== Sys2Proof/Machine/Flags.lean ====
section
/-! DEFINITION. The hardware has no condition codes (R31); its only flag-like state is `status` and
`err`. This file holds their numeric codes (R27, R133, D7). -/

namespace Sys2Proof.Machine

/-- STATUS.state (R27): 0 IDLE, 1 RUN, 2 DONE, 3 ERR. -/
def Status.code : Status → BitVec 2
  | .idle => 0
  | .run  => 1
  | .done => 2
  | .err  => 3

/-- ERR.code (R27, R133): 0 NONE, 1 CorruptStream, 2 OutOfMemory; 3 never occurs. -/
def ErrCode.code : ErrCode → BitVec 2
  | .none          => 0
  | .corruptStream => 1
  | .outOfMemory   => 2

/-- ERR_INFO.cause (R133, R134): 0 NONE, 1 DISTANCE, 2 DIST_ZERO, 3 TRUNC_RUN, 4 TRUNC_BREF. -/
def Cause.code : Cause → BitVec 3
  | .none      => 0
  | .distance  => 1
  | .distZero  => 2
  | .truncRun  => 3
  | .truncBref => 4

end Sys2Proof.Machine
end

