-- ==== Sys2Proof/WellFormed.lean ====
section
/-! DEFINITION. Which terms of `Instr` are tokens: the ranges of R55 and R56. Every operand value
of `bref` and `spair` is an encoding (R57, R58). -/

namespace Sys2Proof

/-- The legal values of format L (R55): 0x00 and 0x09 to 0x7F. -/
def Instr.litByteOk (b : Byte) : Bool :=
  b.toNat == 0 || (9 ≤ b.toNat && b.toNat ≤ 0x7F)

/-- The legal counts of format R (R56): 1 to 8. -/
def Instr.runCountOk (payload : List Byte) : Bool :=
  1 ≤ payload.length && payload.length ≤ 8

/-- The term is a token that the format can carry (R71: "an operand outside the ranges above
cannot be assembled"). -/
def Instr.wf : Instr → Bool
  | .lit b => Instr.litByteOk b
  | .run payload => Instr.runCountOk payload
  | .bref _ _ => true
  | .spair _ => true

end Sys2Proof
end

