-- ==== Sys2Proof/Decode.lean ====
section
/-! DEFINITION. The token decoder, total on any bytes and rejecting by name, the encoder of tokens,
and the field packing both use (R53 to R66). -/

namespace Sys2Proof

/-- Why bytes are no token. Every first byte is assigned (R64), so only missing bytes are refused.
* `empty`: no byte at all.
* `truncRun c`: a RUN whose count byte `c` claims more bytes than remain (R66, R129).
* `truncBref c`: a BREF whose first byte `c` is the last byte (R66, R130). -/
inductive DecodeError where
  | empty
  | truncRun (c : Byte)
  | truncBref (c : Byte)
deriving DecidableEq, Repr

/-- `v = (byte0 << 8) | byte1` (R41, R58). -/
def tokenValue (byte0 byte1 : Byte) : Half :=
  (byte0.setWidth 16 <<< 8) ||| byte1.setWidth 16

/-- `distance = (v & 0x3FFF) >> 3` (R61), 11 bits. -/
def fieldDistance (v : Half) : BitVec 11 :=
  ((v &&& 0x3FFF#16) >>> 3).setWidth 11

/-- `lm3 = v & 0x7` (R58, R61), 3 bits. -/
def fieldLm3 (v : Half) : BitVec 3 :=
  (v &&& 0x7#16).setWidth 3

/-- `length = lm3 + 3` (R61), 3 to 10. -/
def lengthOf (lm3 : BitVec 3) : Nat := lm3.toNat + 3

/-- `v = 0x8000 | (distance << 3) | (length - 3)` (R62). -/
def packBref (distance : BitVec 11) (lm3 : BitVec 3) : Half :=
  0x8000#16 ||| (distance.setWidth 16 <<< 3) ||| lm3.setWidth 16

/-- `v >> 8`, the token's first byte (R62). -/
def highByte (v : Half) : Byte := (v >>> 8).setWidth 8

/-- `v & 0xFF`, the token's second byte (R62). -/
def lowByte (v : Half) : Byte := (v &&& 0xFF#16).setWidth 8

/-- The first byte of a space pair: bits [7:6] are 11 (R57). -/
def spairByte (q : BitVec 6) : Byte := 0xC0#8 ||| q.setWidth 8

/-- The low six bits of a space pair's byte (R57). -/
def fieldQ (c : Byte) : BitVec 6 := c.setWidth 6

/-- The token's length in bytes from its first byte alone (R54, R63). -/
def tokenLength (c : Byte) : Nat :=
  if 1 ≤ c.toNat ∧ c.toNat ≤ 8 then 1 + c.toNat
  else if c.toNat ≤ 0x7F then 1
  else if 0xC0 ≤ c.toNat then 1
  else 2

/-- A RUN: the `c` bytes after the count byte are its payload (R56, R59, R66). -/
def decodeRun (c : Byte) (rest : List Byte) : Except DecodeError (Instr × List Byte) :=
  if c.toNat ≤ rest.length then .ok (.run (rest.take c.toNat), rest.drop c.toNat)
  else .error (.truncRun c)

/-- A BREF: its second byte completes the 16-bit value (R58, R61, R66). -/
def decodeBref (c : Byte) : List Byte → Except DecodeError (Instr × List Byte)
  | [] => .error (.truncBref c)
  | byte1 :: rest =>
    .ok (.bref (fieldDistance (tokenValue c byte1)) (fieldLm3 (tokenValue c byte1)), rest)

/-- The first token of a byte sequence and the bytes after it: dispatch on the first byte
(R54, R74). -/
def decode : List Byte → Except DecodeError (Instr × List Byte)
  | [] => .error .empty
  | c :: rest =>
    if 1 ≤ c.toNat ∧ c.toNat ≤ 8 then decodeRun c rest
    else if c.toNat ≤ 0x7F then .ok (.lit c, rest)
    else if 0xC0 ≤ c.toNat then .ok (.spair (fieldQ c), rest)
    else decodeBref c rest

/-- The bytes of a token, the first at the lowest address (R55 to R58, R62, R71). -/
def encode : Instr → List Byte
  | .lit b => [b]
  | .run payload => BitVec.ofNat 8 payload.length :: payload
  | .bref distance lm3 => [highByte (packBref distance lm3), lowByte (packBref distance lm3)]
  | .spair q => [spairByte q]

/-- The longest token, in bytes: RUN of 8 (R54). -/
def longestToken : Nat := 9

/-- The bytes of a word numbered as spec/opcode_table.json numbers its rows: the row is ONE number
whose most significant byte is the token's first byte (the BREF row: "byte0 first in the stream",
`v = (byte0 << 8) | byte1`), filled up with zero bytes to the longest token (log entry 1). -/
def tableBytes (nbits w : Nat) : List Byte :=
  let n := nbits / 8
  (List.range longestToken).map fun k =>
    if k < n then BitVec.ofNat 8 (w >>> (8 * (n - 1 - k))) else 0#8

/-- The instruction the decoder reads from the word `w` of `nbits` bits. -/
def decodeTableWord (nbits w : Nat) : Option Instr :=
  match decode (tableBytes nbits w) with
  | .ok (i, _) => some i
  | .error _ => none

end Sys2Proof
end

