-- ==== Sys2Proof/Machine/Operands.lean ====
section
/-! DEFINITION. Operand forms: the predicates and the byte arithmetic that tokens and emissions
share (R11, R60, R61, R72). -/

namespace Sys2Proof.Machine

open Sys2Proof

/-- `plain(b)` (R11): a byte that a literal token can carry. -/
def plain (b : Byte) : Bool :=
  b.toNat == 0 || (0x09 ≤ b.toNat && b.toNat ≤ 0x7F)

/-- `pairchar(b)` (R11): the second byte of a space pair. -/
def pairchar (b : Byte) : Bool :=
  0x40 ≤ b.toNat && b.toNat ≤ 0x7F

/-- `b XOR 0x80` (R60): from a space pair's byte to its second output byte, and back. -/
def pairFlip (b : Byte) : Byte := b ^^^ Config.pairXor

/-- `clen = (v & 0x7) + 3` in the 4 bits of its latch (R17, R88). -/
def latchLength (v : Half) : BitVec 4 := (fieldLm3 v).setWidth 4 + 3

end Sys2Proof.Machine
end

