-- ==== Sys2Proof/Machine/Ops.lean ====
section
/-! DEFINITION. The shared operations: memory, the access primitives (R36 to R39), capacities,
taking an exception (R131, R132), the latches, and the two host commands (R25, R26), which are the
only way out of an error (R138). -/

namespace Sys2Proof.Machine

open Sys2Proof

/-! ### Memory -/

/-- The byte at an address, or no value (R16, D26). -/
def Memory.read : Memory → Nat → Option Byte
  | [], _ => none
  | (k, x) :: m, a => if k = a then some x else Memory.read m a

/-- Memory with the byte `b` at address `a`, kept in canonical form. -/
def Memory.write : Memory → Nat → Byte → Memory
  | [], a, b => [(a, b)]
  | (k, x) :: m, a, b =>
    if a < k then (a, b) :: (k, x) :: m
    else if a = k then (a, b) :: m
    else (k, x) :: Memory.write m a b

/-- The memory that holds `bs` from address `a` on. -/
def Memory.ofBytesFrom : Nat → List Byte → Memory
  | _, [] => []
  | a, b :: bs => (a, b) :: Memory.ofBytesFrom (a + 1) bs

/-- A buffer: its first byte at address 0 (R44). -/
def Memory.ofBytes (bs : List Byte) : Memory := Memory.ofBytesFrom 0 bs

/-- The bytes a memory holds, in address order. -/
def Memory.bytes (m : Memory) : List Byte := m.map Prod.snd

/-! ### Capacities and the launch premise -/

/-- `n` bytes fit the capacity; every number fits an unbounded one (R10, R38). -/
def fits (cap : Option Nat) (n : Nat) : Bool :=
  match cap with
  | none => true
  | some k => n ≤ k

/-- With a finite ADDR_W, a size is below `2^ADDR_W`; an unbounded size is not (R10). -/
def fitsWidth (addrW : Option Nat) (size : Option Nat) : Bool :=
  match addrW, size with
  | none, _ => true
  | some _, none => false
  | some w, some n => n < 2 ^ w

/-- A START of `len` bytes to a block with output capacity `cap` is given a meaning: within IN_CAP
(R25), and the launch premise of R10. -/
def launchOk (p : Config.Params) (cap : Option Nat) (len : Nat) : Bool :=
  fits p.inCap len && fitsWidth p.addrW (some len) && fitsWidth p.addrW cap

/-! ### The access primitives -/

/-- A read of a buffer of `len` bytes: defined below `len` only (R36, R37, R39). -/
def readBelow (space : Space) (m : Memory) (len a : Nat) : Except Fault Byte :=
  if a < len then
    match Memory.read m a with
    | some b => .ok b
    | none => .error (.noByte space a)
  else .error (.noByte space a)

/-- `InRead(a)` (R36). -/
def Decoder.inRead (d : Decoder) (a : Nat) : Except Fault Byte :=
  readBelow .input d.input d.inLen a

/-- `OutRead(a)` (R37). -/
def Decoder.outRead (d : Decoder) (a : Nat) : Except Fault Byte :=
  readBelow .out d.out d.o a

/-- `RawRead(a)` (R39). -/
def Encoder.rawRead (en : Encoder) (a : Nat) : Except Fault Byte :=
  readBelow .raw en.raw en.rawLen a

/-- `OutAppend(b)` (R38): `OUT[o] <- b; o <- o + 1` as one action. -/
def Decoder.outAppend (p : Config.Params) (b : Byte) (d : Decoder) : Except Fault Decoder :=
  if fits p.outCap (d.o + 1) then
    .ok { d with out := Memory.write d.out d.o b, o := d.o + 1 }
  else .error (.full .out d.o)

/-- `CodeAppend(b)` (R39): `CODE[e] <- b; e <- e + 1` as one action. -/
def Encoder.codeAppend (p : Config.Params) (b : Byte) (en : Encoder) : Except Fault Encoder :=
  if fits p.codeCap (en.e + 1) then
    .ok { en with code := Memory.write en.code en.e b, e := en.e + 1 }
  else .error (.full .code en.e)

/-- `OutAppend` of each byte in order. -/
def Decoder.outAppendAll (p : Config.Params) : List Byte → Decoder → Except Fault Decoder
  | [], d => .ok d
  | b :: bs, d => (d.outAppend p b).bind (Decoder.outAppendAll p bs)

/-- `CodeAppend` of each byte in order. -/
def Encoder.codeAppendAll (p : Config.Params) : List Byte → Encoder → Except Fault Encoder
  | [], en => .ok en
  | b :: bs, en => (en.codeAppend p b).bind (Encoder.codeAppendAll p bs)

/-! ### Taking an exception -/

/-- TAKING AN EXCEPTION, the one operation of both blocks (R131, R132): `status <- ERR`, `err` and
`err_info` written (R134). No program counter is saved and control goes nowhere: the block takes no
further step. -/
def Port.raise (err : ErrCode) (info : ErrInfo) : Port := ⟨.err, err, info⟩

/-- `raise CorruptStream(cause, i_tok, o)` (R131); `first` is the latched first byte. -/
def Decoder.raiseCorrupt (cause : Cause) (iTok : Nat) (d : Decoder) : Decoder :=
  { d with port := Port.raise .corruptStream ⟨cause, iTok, d.latch.c, d.o⟩ }

/-- `raise OutOfMemory(i_tok, o)` of the decoder (R132). -/
def Decoder.raiseMemory (iTok : Nat) (d : Decoder) : Decoder :=
  { d with port := Port.raise .outOfMemory ⟨.none, iTok, d.latch.c, d.o⟩ }

/-- `raise OutOfMemory(i, e)` of the encoder (R132); `first` is `RAW[i]` (R134). -/
def Encoder.raiseMemory (first : Byte) (en : Encoder) : Encoder :=
  { en with port := Port.raise .outOfMemory ⟨.none, en.i, first, en.e⟩ }

/-! ### The latches -/

/-- Fetch of a token's first byte (R74): `c` latched and `i` advanced by one. -/
def Decoder.beginToken (c : Byte) (d : Decoder) : Decoder :=
  { d with i := d.i + 1, latch := { d.latch with c := c } }

/-- `rem <- n`: bytes still to move in the current token (R17, R84, R92). -/
def Decoder.setRem (n : BitVec 4) (d : Decoder) : Decoder :=
  { d with latch := { d.latch with rem := n } }

/-- `n <- b`: the byte after the cursor (R23, R112). -/
def Encoder.setN (b : Byte) (en : Encoder) : Encoder :=
  { en with latch := { en.latch with n := b } }

/-- `cnt <- n`: the binary-run count (R23, R114). -/
def Encoder.setCnt (n : BitVec 4) (en : Encoder) : Encoder :=
  { en with latch := { en.latch with cnt := n } }

/-- Outside its step a latch holds an unspecified value (R17, R149): the decoder's latches take the
next free value (log entry 5). -/
def Decoder.release (d : Decoder) : Decoder :=
  { d with latch := Config.freeDecLatches d.draws, draws := d.draws + 1 }

/-- Outside its step a working register holds an unspecified value (R23, R149; log entry 5). -/
def Encoder.release (en : Encoder) : Encoder :=
  { en with latch := Config.freeEncLatches en.draws, draws := en.draws + 1 }

/-! ### The end of a run -/

/-- The step that finds `i >= in_len`: `status <- DONE` and nothing else (R80). -/
def Decoder.finish (d : Decoder) : Decoder := { d with port := { d.port with status := .done } }

/-- The step that finds `i >= raw_len`: `status <- DONE` and nothing else (R110). -/
def Encoder.finish (en : Encoder) : Encoder := { en with port := { en.port with status := .done } }

/-! ### The host commands -/

/-- `START(buffer)` to the decoder (R25): ignored in RUN; refused, the block staying as it was, when
the launch premise fails (log entry 8); else the call's initial state, in one step (D30), the latches
and `err_info` unspecified (R33). -/
def Decoder.start (p : Config.Params) (buffer : List Byte) (d : Decoder) : Decoder :=
  if d.port.status = .run then d
  else if launchOk p p.outCap buffer.length then
    { input := Memory.ofBytes buffer
      inLen := buffer.length
      i     := 0
      out   := []
      o     := 0
      port  := ⟨.run, .none, Config.freeDecErrInfo d.draws⟩
      latch := Config.freeDecLatches d.draws
      draws := d.draws + 1 }
  else d

/-- `START(buffer)` to the encoder (R25). -/
def Encoder.start (p : Config.Params) (buffer : List Byte) (en : Encoder) : Encoder :=
  if en.port.status = .run then en
  else if launchOk p p.codeCap buffer.length then
    { raw    := Memory.ofBytes buffer
      rawLen := buffer.length
      i      := 0
      code   := []
      e      := 0
      port   := ⟨.run, .none, Config.freeEncErrInfo en.draws⟩
      latch  := Config.freeEncLatches en.draws
      draws  := en.draws + 1 }
  else en

/-- `RESET` to the decoder (R26, R147), in any status. -/
def Decoder.resetCmd (d : Decoder) : Decoder := Decoder.afterReset d.draws

/-- `RESET` to the encoder (R26, R147), in any status. -/
def Encoder.resetCmd (en : Encoder) : Encoder := Encoder.afterReset en.draws

/-! ### From a block's answer to the machine's -/

/-- A token step's answer: the decoder it left, its latches released, in the machine; or its
fault. -/
def State.answerDecoder (s : State) : Except Fault Decoder → Host.Outcome State Fault Refusal
  | .ok d => .next { s with dec := d.release }
  | .error f => .fault f

/-- An encoder step's answer. -/
def State.answerEncoder (s : State) : Except Fault Encoder → Host.Outcome State Fault Refusal
  | .ok en => .next { s with enc := en }
  | .error f => .fault f

end Sys2Proof.Machine
end

