-- ==== Sys2Proof/Machine/CopyEngine.lean ====
section
/-! DEFINITION. The back-reference copy engine: BREF (R78, R87 to R94). -/

namespace Sys2Proof.Machine

open Sys2Proof

/-- Second-byte fetch and field extraction (R88): `i` advanced, `v`, `dist` and `clen` latched. -/
def Decoder.latchBref (v : Half) (d : Decoder) : Decoder :=
  { d with
    i := d.i + 1
    latch := { d.latch with v := v, dist := fieldDistance v, clen := latchLength v } }

/-- One micro-step of the copy (R90, R92): `OutAppend(OutRead(o - dist))`, the read made with the
bytes this token has already appended in place (R48). -/
def Decoder.copyMicro (p : Config.Params) (d : Decoder) : Except Fault Decoder :=
  (d.outRead (d.o - d.latch.dist.toNat)).bind fun b =>
    (d.outAppend p b).map fun d' => d'.setRem (d'.latch.rem - 1)

/-- The micro-steps of a copy of `n` bytes, in order (R90, R92). -/
def Decoder.copyLoop (p : Config.Params) : Nat → Decoder → Except Fault Decoder
  | 0, d => .ok d
  | n + 1, d => (d.copyMicro p).bind (Decoder.copyLoop p n)

/-- The checks before the copy, in the order of R89 and R135, and the copy (R90). -/
def Decoder.checkAndCopy (p : Config.Params) (iTok : Nat) (d : Decoder) : Except Fault Decoder :=
  if d.latch.dist.toNat = 0 then .ok (d.raiseCorrupt .distZero iTok)
  else if d.o < d.latch.dist.toNat then .ok (d.raiseCorrupt .distance iTok)
  else if fits p.outCap (d.o + d.latch.clen.toNat) then
    Decoder.copyLoop p d.latch.clen.toNat (d.setRem d.latch.clen)
  else .ok (d.raiseMemory iTok)

/-- BREF (R87), from the token's first byte. -/
def Decoder.brefBody (p : Config.Params) (distance : BitVec 11) (lm3 : BitVec 3) (d : Decoder) :
    Except Fault Decoder :=
  let d1 := d.beginToken (highByte (packBref distance lm3))
  if d1.inLen ≤ d1.i then .ok (d1.raiseCorrupt .truncBref d.i)
  else (d1.latchBref (packBref distance lm3)).checkAndCopy p d.i

/-- The meaning of BREF (R87). -/
def execBref (distance : BitVec 11) (lm3 : BitVec 3) (s : State) :
    Host.Outcome State Fault Refusal :=
  s.answerDecoder (s.dec.brefBody s.params distance lm3)

end Sys2Proof.Machine
end

