-- ==== Sys2Proof/Machine/TokenInterpreter.lean ====
section
/-! DEFINITION. The token interpreter's own tokens: LIT, RUN, SPAIR (R75 to R77). A meaning starts at
the token's first byte: it makes the fetch of R74 (`c` latched, `i + 1`) and then the token's rule. -/

namespace Sys2Proof.Machine

open Sys2Proof

/-- The end of a token whose whole output is `bytes` (R75, R77): room for all of it is checked before
the first append (R132, R136). -/
def Decoder.appendOrRaise (p : Config.Params) (iTok : Nat) (bytes : List Byte) (d : Decoder) :
    Except Fault Decoder :=
  if fits p.outCap (d.o + bytes.length) then d.outAppendAll p bytes
  else .ok (d.raiseMemory iTok)

/-- LIT (R75): appends the token's own byte. -/
def Decoder.litBody (p : Config.Params) (b : Byte) (d : Decoder) : Except Fault Decoder :=
  (d.beginToken b).appendOrRaise p d.i [b]

/-- SPAIR (R77): appends 0x20 and `c XOR 0x80`. -/
def Decoder.spairBody (p : Config.Params) (q : BitVec 6) (d : Decoder) : Except Fault Decoder :=
  (d.beginToken (spairByte q)).appendOrRaise p d.i [Config.space, pairFlip (spairByte q)]

/-- One micro-step of a RUN (R84): the payload byte at `i` appended, `i` and `rem` moved on. -/
def Decoder.runMicro (p : Config.Params) (b : Byte) (d : Decoder) : Except Fault Decoder :=
  (d.outAppend p b).map fun d' => Decoder.setRem (d'.latch.rem - 1) { d' with i := d'.i + 1 }

/-- The micro-steps of a RUN, one a payload byte (R84). -/
def Decoder.runLoop (p : Config.Params) : List Byte → Decoder → Except Fault Decoder
  | [], d => .ok d
  | b :: bs, d => (d.runMicro p b).bind (Decoder.runLoop p bs)

/-- RUN (R76): truncation is checked first, then room (R135), then the payload is copied. -/
def Decoder.runBody (p : Config.Params) (payload : List Byte) (d : Decoder) :
    Except Fault Decoder :=
  let d1 := d.beginToken (BitVec.ofNat 8 payload.length)
  if d1.inLen - d1.i < payload.length then .ok (d1.raiseCorrupt .truncRun d.i)
  else if fits p.outCap (d1.o + payload.length) then
    Decoder.runLoop p payload (d1.setRem (BitVec.ofNat 4 payload.length))
  else .ok (d1.raiseMemory d.i)

/-- The meaning of LIT (R75). -/
def execLit (b : Byte) (s : State) : Host.Outcome State Fault Refusal :=
  s.answerDecoder (s.dec.litBody s.params b)

/-- The meaning of RUN (R76). -/
def execRun (payload : List Byte) (s : State) : Host.Outcome State Fault Refusal :=
  s.answerDecoder (s.dec.runBody s.params payload)

/-- The meaning of SPAIR (R77). -/
def execSpair (q : BitVec 6) (s : State) : Host.Outcome State Fault Refusal :=
  s.answerDecoder (s.dec.spairBody s.params q)

end Sys2Proof.Machine
end

