-- ==== Sys2Proof/Machine/Dispatch.lean ====
section
/-! DEFINITION. `exec`: one arm per constructor of `Instr`, one call of its meaning. -/

namespace Sys2Proof.Machine

open Sys2Proof

def exec (i : Instr) (s : State) : Host.Outcome State Fault Refusal :=
  match i with
  | .lit b => Sys2Proof.Machine.execLit b s
  | .run payload => Sys2Proof.Machine.execRun payload s
  | .bref distance lm3 => Sys2Proof.Machine.execBref distance lm3 s
  | .spair q => Sys2Proof.Machine.execSpair q s

end Sys2Proof.Machine
end

