-- ==== Sys2Proof/Machine/MatchSearch.lean ====
section
/-! DEFINITION. The encoder's match search (R99 to R103, R108). -/

namespace Sys2Proof.Machine

open Sys2Proof

/-- MATCH_POLICY (R10, R107): from RAW, `raw_len` and `i` to a position and a length. -/
abbrev MatchPolicy := Memory → Nat → Nat → Option (Nat × Nat)

/-- The margin condition (R99): 10 bytes behind the cursor, and 10 from it on. -/
def marginOk (rawLen i : Nat) : Bool := Config.margin ≤ i && Config.margin ≤ rawLen - i

/-- The scan's lower bound `lo = max(0, i - 2047)` (R101). -/
def scanLow (i : Nat) : Nat := i - Config.distMax

/-- The bytes at two positions are equal (R102). -/
def sameByte (raw : Memory) (a b : Nat) : Bool :=
  match Memory.read raw a, Memory.read raw b with
  | some x, some y => x == y
  | _, _ => false

/-- The window compare (R102): `L` byte pairs at `j` and `i`. -/
def windowEq (raw : Memory) (j i : Nat) : Nat → Bool
  | 0 => true
  | L + 1 => windowEq raw j i L && sameByte raw (j + L) (i + L)

/-- The backward scan (R101): of the `n` candidates `lo + n - 1` down to `lo`, the nearest whose
window equals the window at `i`. -/
def scanBack (raw : Memory) (i lo L : Nat) : Nat → Option Nat
  | 0 => none
  | n + 1 => if windowEq raw (lo + n) i L then some (lo + n) else scanBack raw i lo L n

/-- The scan for one length: the candidates are `i - L` down to `lo` (R101). -/
def scanLength (raw : Memory) (i L : Nat) : Option Nat :=
  scanBack raw i (scanLow i) L (i - L + 1 - scanLow i)

/-- The chunk-length loop (R100): lengths `n + 2` down to 3, the longest first. -/
def searchLengths (raw : Memory) (i : Nat) : Nat → Option (Nat × Nat)
  | 0 => none
  | n + 1 =>
    ((scanLength raw i (n + Config.lenMin)).map fun j => (j, n + Config.lenMin)).or
      (searchLengths raw i n)

/-- `ref_match`, the policy of this hardware (R103). -/
def refMatch : MatchPolicy := fun raw rawLen i =>
  if marginOk rawLen i then searchLengths raw i (Config.lenMax - Config.lenMin + 1) else none

/-- The search of an encoder step (R98): its result in the registers `found`, `j` and `L` (R23). -/
def Encoder.search (policy : MatchPolicy) (en : Encoder) : Encoder :=
  match policy en.raw en.rawLen en.i with
  | some (j, L) => { en with latch := { en.latch with found := true, j := j, L := BitVec.ofNat 4 L } }
  | none => { en with latch := { en.latch with found := false } }

/-! ### The search as micro-steps over its registers (R108) -/

/-- The registers at the start of a search (R108): `L <- 10, j <- i - L, k <- 0`. -/
def searchStart (i : Nat) (r : EncLatches) : EncLatches :=
  { r with L := BitVec.ofNat 4 Config.lenMax, j := i - Config.lenMax, k := 0, found := false }

/-- The search has ended: a match was found, or every length down to 3 has been tried (R100). -/
def searchEnded (r : EncLatches) : Bool := r.found || r.L.toNat < Config.lenMin

/-- One micro-step (R108): compare one byte pair; all pairs equal sets `found`; a difference moves `j`
down by one, or at `j = lo` goes to the next length. -/
def searchMicro (raw : Memory) (i : Nat) (r : EncLatches) : EncLatches :=
  if searchEnded r then r
  else if r.k = r.L then { r with found := true }
  else if sameByte raw (r.j + r.k.toNat) (i + r.k.toNat) then { r with k := r.k + 1 }
  else if r.j = scanLow i then
    { r with L := r.L - 1, j := i - (r.L.toNat - 1), k := 0 }
  else { r with j := r.j - 1, k := 0 }

/-- `n` micro-steps of the search. -/
def searchRun (raw : Memory) (i : Nat) : Nat → EncLatches → EncLatches
  | 0, r => r
  | n + 1, r => searchRun raw i n (searchMicro raw i r)

/-- The result that the registers of an ended search hold (R108). -/
def searchResult (r : EncLatches) : Option (Nat × Nat) :=
  if r.found then some (r.j, r.L.toNat) else none

end Sys2Proof.Machine
end

