-- ==== Sys2Proof/Machine/TokenEmission.lean ====
section
/-! DEFINITION. The encoder's emissions (R105, R111 to R114) and its step (R98, R110). -/

namespace Sys2Proof.Machine

open Sys2Proof

/-- Emitting one token (R105, R112 to R114): room for all of it is checked before the first append
(R132), then the bytes are appended in order and the cursor advances by the raw bytes they stand
for. -/
def Encoder.emit (p : Config.Params) (token : List Byte) (adv : Nat) (en : Encoder) :
    Except Fault Encoder :=
  if fits p.codeCap (en.e + token.length) then
    (en.codeAppendAll p token).map fun en' => { en' with i := en'.i + adv }
  else (en.rawRead en.i).map fun first => en.raiseMemory first

/-- `EMIT_BREF(i - j, L)` (R105), from the registers `j` and `L`. -/
def Encoder.emitBref (p : Config.Params) (en : Encoder) : Except Fault Encoder :=
  let v := packBref (BitVec.ofNat 11 (en.i - en.latch.j)) (BitVec.ofNat 3 (en.latch.L.toNat - 3))
  en.emit p [highByte v, lowByte v] en.latch.L.toNat

/-- `EMIT_SPAIR` (R112): the byte after the cursor, kept in the register `n`, XOR 0x80. -/
def Encoder.emitSpair (p : Config.Params) (en : Encoder) : Except Fault Encoder :=
  (en.rawRead (en.i + 1)).bind fun n =>
    (en.setN n).emit p [pairFlip (en.setN n).latch.n] 2

/-- `EMIT_LIT` (R113): the byte at the cursor. -/
def Encoder.emitLit (p : Config.Params) (en : Encoder) : Except Fault Encoder :=
  (en.rawRead en.i).bind fun c => en.emit p [c] 1

/-- The collecting loop of `EMIT_RUN` (R114), from the count `cnt`, at most `fuel` bytes more. -/
def Encoder.countRun (en : Encoder) : Nat → Nat → Except Fault Nat
  | 0, cnt => .ok cnt
  | fuel + 1, cnt =>
    if en.i + cnt < en.rawLen then
      (en.rawRead (en.i + cnt)).bind fun b =>
        if plain b then .ok cnt else Encoder.countRun en fuel (cnt + 1)
    else .ok cnt

/-- `n` raw bytes from address `a` on. -/
def Encoder.rawReads (en : Encoder) : Nat → Nat → Except Fault (List Byte)
  | _, 0 => .ok []
  | a, n + 1 => (en.rawRead a).bind fun b => (Encoder.rawReads en (a + 1) n).map fun bs => b :: bs

/-- `EMIT_RUN` (R114): the count, kept in the register `cnt`, and the collected bytes. -/
def Encoder.emitRun (p : Config.Params) (en : Encoder) : Except Fault Encoder :=
  (Encoder.countRun en (Config.runMax - 1) 1).bind fun cnt =>
    let en1 := en.setCnt (BitVec.ofNat 4 cnt)
    (Encoder.rawReads en1 en1.i en1.latch.cnt.toNat).bind fun payload =>
      en1.emit p (en1.latch.cnt.setWidth 8 :: payload) en1.latch.cnt.toNat

/-- The first test of R111: the cursor is at a space, a next byte exists and is a pair character. -/
def Encoder.pairAhead (en : Encoder) (c : Byte) : Except Fault Bool :=
  if c = Config.space ∧ en.i + 1 < en.rawLen then (en.rawRead (en.i + 1)).map pairchar
  else .ok false

/-- The literal family (R111): space pair, then plain literal, then binary run. -/
def Encoder.literalFamily (p : Config.Params) (en : Encoder) : Except Fault Encoder :=
  (en.rawRead en.i).bind fun c =>
    (en.pairAhead c).bind fun pair =>
      if pair then en.emitSpair p
      else if plain c then en.emitLit p
      else en.emitRun p

/-- The encoder step for a match policy (R98, R110); its working registers are unspecified after it
(R23). -/
def Encoder.stepWith (policy : MatchPolicy) (p : Config.Params) (en : Encoder) :
    Except Fault Encoder :=
  if en.rawLen ≤ en.i then .ok en.finish
  else
    let en1 := en.search policy
    (if en1.latch.found then en1.emitBref p else en1.literalFamily p).map Encoder.release

/-- One step of the encoder of this hardware, whose policy is `ref_match` (R98, R103); enabled in RUN
only (R145). -/
def encoderStep (s : State) : Host.Outcome State Fault Refusal :=
  if s.enc.port.status = .run then s.answerEncoder (s.enc.stepWith refMatch s.params)
  else .next s

end Sys2Proof.Machine
end

