-- ==== Sys2Proof/Machine/Sequencer.lean ====
section
/-! DEFINITION. The decoder's token step (fetch, decode, dispatch, end of run: R74, R79, R80), the host
commands as events, and which agent moves next (log entry 3). -/

namespace Sys2Proof.Machine

open Sys2Proof

/-- `n` bytes of IN from address `a` on, one at a time in ascending order (R41). -/
def Decoder.inReads (d : Decoder) : Nat → Nat → Except Fault (List Byte)
  | _, 0 => .ok []
  | a, n + 1 => (d.inRead a).bind fun b => (Decoder.inReads d (a + 1) n).map fun bs => b :: bs

/-- The bytes of the token at `i`: its first byte, and the rest its first byte calls for (R63) when
they lie inside the buffer; where they do not, no further byte is read (R36). -/
def Decoder.fetch (d : Decoder) : Except Fault (List Byte) :=
  (d.inRead d.i).bind fun c =>
    if tokenLength c - 1 ≤ d.inLen - (d.i + 1) then
      (Decoder.inReads d (d.i + 1) (tokenLength c - 1)).map fun bs => c :: bs
    else .ok [c]

/-- A token whose bytes run past the end (R66): its first byte is fetched and CorruptStream raised
(R129, R130). -/
def Decoder.raiseTruncated (cause : Cause) (c : Byte) (d : Decoder) : Decoder :=
  (d.beginToken c).raiseCorrupt cause d.i

/-- The decoding of the fetched bytes, run: a token is executed; bytes that are no token raise
(R66). -/
def runFetched (bytes : List Byte) (s : State) : Host.Outcome State Fault Refusal :=
  match decode bytes with
  | .ok (i, _) => exec i s
  | .error (.truncRun c) => s.answerDecoder (.ok (s.dec.raiseTruncated .truncRun c))
  | .error (.truncBref c) => s.answerDecoder (.ok (s.dec.raiseTruncated .truncBref c))
  | .error .empty => .fault (.noByte .input s.dec.i)

/-- One step of the decoder (R74), enabled in RUN only (R145): the end of the run (R80), or one whole
token. -/
def decoderStep (s : State) : Host.Outcome State Fault Refusal :=
  if s.dec.port.status = .run then
    if s.dec.inLen ≤ s.dec.i then .next { s with dec := s.dec.finish }
    else
      match s.dec.fetch with
      | .ok bytes => runFetched bytes s
      | .error f => .fault f
  else .next s

/-- `START(buffer)` to a block (R25). -/
def hostStart (block : BlockId) (buffer : List Byte) (s : State) : State :=
  match block with
  | .decoder => { s with dec := s.dec.start s.params buffer }
  | .encoder => { s with enc := s.enc.start s.params buffer }

/-- `RESET` to a block (R26). -/
def hostReset (block : BlockId) (s : State) : State :=
  match block with
  | .decoder => { s with dec := s.dec.resetCmd }
  | .encoder => { s with enc := s.enc.resetCmd }

/-- One event of the schedule. -/
def runEvent (ev : Event) (s : State) : Host.Outcome State Fault Refusal :=
  match ev with
  | .start block buffer => .next (hostStart block buffer s)
  | .reset block => .next (hostReset block s)
  | .decoder => decoderStep s
  | .encoder => encoderStep s

/-- With no event to come, a running block moves: the decoder while it runs, then the encoder
(fairness, R160); with none running, nothing happens (R145). -/
def runUnscheduled (s : State) : Host.Outcome State Fault Refusal :=
  if s.dec.port.status = .run then decoderStep s else encoderStep s

/-- One step of the machine: the next event of the schedule, or with none the running block. -/
def machineStep (s : State) : Host.Outcome State Fault Refusal :=
  match s.schedule with
  | [] => runUnscheduled s
  | ev :: rest => runEvent ev { s with schedule := rest }

/-- `bytes` written into IN from address `a` on. -/
def writeAll (m : Memory) : Nat → List Byte → Memory
  | _, [] => m
  | a, b :: bs => writeAll (Memory.write m a b) (a + 1) bs

/-- A token's bytes placed where the decoder fetches next, and the decoder in a call that fetches
them: IN at `i`, `in_len` past them, status RUN with no error, and no event before the token step
(log entry 2). -/
def placeToken (bytes : List Byte) (s : State) : State :=
  { s with
    dec := { s.dec with
      input := writeAll s.dec.input s.dec.i bytes
      inLen := max s.dec.inLen (s.dec.i + bytes.length)
      port  := { s.dec.port with status := .run, err := .none } }
    schedule := [] }

end Sys2Proof.Machine
end

