-- ==== Sys2Proof/Machine/Step.lean ====
section
/-! DEFINITION. `step`, and the placing of a word where it fetches next. -/

namespace Sys2Proof.Machine

open Sys2Proof

/-- One step of the machine (log entry 3). -/
def step (s : State) : Host.Outcome State Fault Refusal := machineStep s

/-- `s` with the word `w` of `nbits` bits, numbered as the opcode table numbers it and filled up with
zeros to the longest token, where `step` fetches its next instruction (log entries 1 and 2). -/
def State.withFetchWord (s : State) (nbits w : Nat) : State := placeToken (tableBytes nbits w) s

end Sys2Proof.Machine
end

