-- ==== Sys2Proof/Machine/HostPort.lean ====
section
/-! DEFINITION. What the host can read (R27 to R29): registers and the result, as functions of the
state. `none` is "no value": the host may not read there (log entry 16). -/

namespace Sys2Proof.Machine

open Sys2Proof

/-- STATUS.state, readable at any time (R27, R28). -/
def Port.readStatus (port : Port) : BitVec 2 := port.status.code

/-- ERR.code; during RUN only STATUS may be read (R28). -/
def Port.readErr (port : Port) : Option (BitVec 2) :=
  match port.status with
  | .run => none
  | _ => some port.err.code

/-- ERR_INFO, defined only in status ERR (R27, R134). -/
def Port.readErrInfo (port : Port) : Option ErrInfo :=
  match port.status with
  | .err => some port.errInfo
  | _ => none

/-- OUT_LEN (R27): the bytes produced in DONE, 0 in IDLE and ERR, no value in RUN. -/
def Port.readOutLen (port : Port) (filled : Nat) : Option Nat :=
  match port.status with
  | .done => some filled
  | .idle => some 0
  | .err => some 0
  | .run => none

/-- IN_LEN (R27), not readable in RUN (R28). -/
def Port.readInLen (port : Port) (len : Nat) : Option Nat :=
  match port.status with
  | .run => none
  | _ => some len

/-- `n` bytes of a buffer from address `a` on; no value where one of them has none (D26). -/
def Memory.slice (m : Memory) : Nat → Nat → Option (List Byte)
  | _, 0 => some []
  | a, n + 1 => (Memory.read m a).bind fun b => (Memory.slice m (a + 1) n).map fun bs => b :: bs

/-- The result of a call, readable in DONE only (R28, R29, R137). -/
def Port.readResult (port : Port) (m : Memory) (filled : Nat) : Option (List Byte) :=
  match port.status with
  | .done => Memory.slice m 0 filled
  | _ => none

/-- The decoder's OUT_LEN (R27). -/
def Decoder.readOutLen (d : Decoder) : Option Nat := d.port.readOutLen d.o

/-- The encoder's OUT_LEN (R27). -/
def Encoder.readOutLen (en : Encoder) : Option Nat := en.port.readOutLen en.e

/-- The decoder's IN_LEN (R27). -/
def Decoder.readInLen (d : Decoder) : Option Nat := d.port.readInLen d.inLen

/-- The encoder's IN_LEN (R27). -/
def Encoder.readInLen (en : Encoder) : Option Nat := en.port.readInLen en.rawLen

/-- The decoder's result `OUT[0..OUT_LEN)` (R29, R81). -/
def Decoder.readResult (d : Decoder) : Option (List Byte) := d.port.readResult d.out d.o

/-- The encoder's result `CODE[0..OUT_LEN)` (R29, R110). -/
def Encoder.readResult (en : Encoder) : Option (List Byte) := en.port.readResult en.code en.e

end Sys2Proof.Machine
end

