-- ==== Sys2Proof/Machine/CodecFn.lean ====
section
/-! DEFINITION. The two blocks as functions on byte sequences, written from R86 and R124 alone: the
clear form that the machine's steps are claimed to compute. -/

namespace Sys2Proof.Machine

open Sys2Proof

/-- An error of a call (R86, R124): the name, the cause, the offset and the bytes produced. -/
structure CodecError where
  err    : ErrCode
  cause  : Cause
  pos    : Nat
  filled : Nat
deriving DecidableEq, Repr

/-- `repeat n times: OUT <- OUT ++ [OUT[len(OUT) - dist]]` (R86). -/
def copyBytes (dist : Nat) : Nat → List Byte → List Byte
  | 0, out => out
  | n + 1, out => copyBytes dist n (out ++ (out[out.length - dist]?).toList)

/-- The back-reference of R86 with second byte `byte1`, `i` the token's offset. -/
def decodeBrefToken (cap : Option Nat) (i : Nat) (c byte1 : Byte) (out : List Byte) :
    Except CodecError (Nat × List Byte) :=
  let v := tokenValue c byte1
  let dist := (fieldDistance v).toNat
  let clen := lengthOf (fieldLm3 v)
  if dist = 0 then .error ⟨.corruptStream, .distZero, i, out.length⟩
  else if out.length < dist then .error ⟨.corruptStream, .distance, i, out.length⟩
  else if fits cap (out.length + clen) then .ok (i + 2, copyBytes dist clen out)
  else .error ⟨.outOfMemory, .none, i, out.length⟩

/-- A token whose output is `bytes` and whose length in the stream is `len` (R86). -/
def decodeAppend (cap : Option Nat) (i len : Nat) (bytes out : List Byte) :
    Except CodecError (Nat × List Byte) :=
  if fits cap (out.length + bytes.length) then .ok (i + len, out ++ bytes)
  else .error ⟨.outOfMemory, .none, i, out.length⟩

/-- One iteration of R86's loop, at the token of first byte `c` and offset `i`. -/
def decodeToken (cap : Option Nat) (stream : List Byte) (i : Nat) (c : Byte) (out : List Byte) :
    Except CodecError (Nat × List Byte) :=
  if 1 ≤ c.toNat ∧ c.toNat ≤ 8 then
    if stream.length - (i + 1) < c.toNat then
      .error ⟨.corruptStream, .truncRun, i, out.length⟩
    else decodeAppend cap i (1 + c.toNat) ((stream.drop (i + 1)).take c.toNat) out
  else if c.toNat ≤ 0x7F then decodeAppend cap i 1 [c] out
  else if 0xC0 ≤ c.toNat then decodeAppend cap i 1 [Config.space, c ^^^ 0x80#8] out
  else
    match stream[i + 1]? with
    | none => .error ⟨.corruptStream, .truncBref, i, out.length⟩
    | some byte1 => decodeBrefToken cap i c byte1 out

/-- R86's loop; `fuel` bounds the iterations, of which `len(IN) + 1` are enough (R82). -/
def decodeLoop (cap : Option Nat) (stream : List Byte) :
    Nat → Nat → List Byte → Except CodecError (List Byte)
  | 0, _, out => .ok out
  | fuel + 1, i, out =>
    match stream[i]? with
    | none => .ok out
    | some c =>
      (decodeToken cap stream i c out).bind fun next => decodeLoop cap stream fuel next.1 next.2

/-- `decode(IN, OUT_CAP)` (R86). -/
def decodeFn (cap : Option Nat) (stream : List Byte) : Except CodecError (List Byte) :=
  decodeLoop cap stream (stream.length + 1) 0 []

/-- The bytes of a binary run at `i` (R114): the longest prefix of non-plain bytes, cut to 8. -/
def runBytes (raw : List Byte) (i : Nat) : List Byte :=
  ((raw.drop i).take Config.runMax).takeWhile fun b => !plain b

/-- The token of the literal family at `i` and the raw bytes it stands for (R111, R124). -/
def literalToken (raw : List Byte) (i : Nat) (c : Byte) : List Byte × Nat :=
  match raw[i + 1]? with
  | some n =>
    if c = Config.space ∧ pairchar n then ([n ^^^ 0x80#8], 2)
    else if plain c then ([c], 1)
    else (BitVec.ofNat 8 (runBytes raw i).length :: runBytes raw i, (runBytes raw i).length)
  | none =>
    if plain c then ([c], 1)
    else (BitVec.ofNat 8 (runBytes raw i).length :: runBytes raw i, (runBytes raw i).length)

/-- The token that one iteration of R124 emits at `i`, and the raw bytes it stands for. -/
def emittedToken (policy : MatchPolicy) (raw : List Byte) (i : Nat) (c : Byte) :
    List Byte × Nat :=
  match policy (Memory.ofBytes raw) raw.length i with
  | some (j, L) =>
    ([BitVec.ofNat 8 (0x80 ||| ((i - j) >>> 5)),
      BitVec.ofNat 8 ((((i - j) &&& 0x1F) <<< 3) ||| (L - 3))], L)
  | none => literalToken raw i c

/-- R124's loop; `fuel` bounds the iterations, of which `len(RAW) + 1` are enough (R116). -/
def encodeLoop (policy : MatchPolicy) (cap : Option Nat) (raw : List Byte) :
    Nat → Nat → List Byte → Except CodecError (List Byte)
  | 0, _, code => .ok code
  | fuel + 1, i, code =>
    match raw[i]? with
    | none => .ok code
    | some c =>
      let tok := emittedToken policy raw i c
      if fits cap (code.length + tok.1.length) then
        encodeLoop policy cap raw fuel (i + tok.2) (code ++ tok.1)
      else .error ⟨.outOfMemory, .none, i, code.length⟩

/-- `encode(RAW, CODE_CAP)` for a match policy (R124). -/
def encodeFnWith (policy : MatchPolicy) (cap : Option Nat) (raw : List Byte) :
    Except CodecError (List Byte) :=
  encodeLoop policy cap raw (raw.length + 1) 0 []

/-- `encode(RAW, CODE_CAP)` of this hardware (R103, R124). -/
def encodeFn (cap : Option Nat) (raw : List Byte) : Except CodecError (List Byte) :=
  encodeFnWith refMatch cap raw

end Sys2Proof.Machine
end

