-- ==== Sys2Proof/Safety.lean ====
section
/-! DEFINITION. What counts as a good state and the vocabulary of the claims: the canonical form of
memory, the invariants of R34, what a token appends and leaves alone, and the contract of a match
policy (R107). -/

namespace Sys2Proof.Machine

open Sys2Proof

/-- The canonical form of memory: addresses strictly rising. (An unlisted address holds no value, so
no entry can equal what one reads as.) -/
abbrev Memory.wf (m : Memory) : Prop := m.Pairwise fun x y => x.1 < y.1

/-- A buffer of `n` bytes: exactly the addresses 0 to `n - 1` hold a value (R14, R16, R20, R22). -/
abbrev Buffer (m : Memory) (n : Nat) : Prop := m.map Prod.fst = List.range n

/-- `m` holds `bs` from address `a` on. -/
def HoldsAt (m : Memory) (a : Nat) (bs : List Byte) : Prop :=
  ∀ k, k < bs.length → Memory.read m (a + k) = bs[k]?

/-- Every address outside `[a, a + n)` reads in `m'` as in `m`. -/
def SameOutside (m m' : Memory) (a n : Nat) : Prop :=
  ∀ x, x < a ∨ a + n ≤ x → Memory.read m' x = Memory.read m x

/-- What no token changes (R74, R46): the encoder, the parameters, the schedule, IN and `in_len`. -/
def TokenFrame (s t : State) : Prop :=
  t.enc = s.enc ∧ t.params = s.params ∧ t.schedule = s.schedule ∧
    t.dec.input = s.dec.input ∧ t.dec.inLen = s.dec.inLen

/-- A token of `len` bytes that completes and appends `bs`: `i` past the token, `bs` at the old `o` and
after it, every other byte of OUT as before, `status`, `err` and `err_info` as before. -/
def TokenDone (s t : State) (len : Nat) (bs : List Byte) : Prop :=
  t.dec.i = s.dec.i + len ∧ t.dec.o = s.dec.o + bs.length ∧ HoldsAt t.dec.out s.dec.o bs ∧
    SameOutside s.dec.out t.dec.out s.dec.o bs.length ∧ t.dec.port = s.dec.port ∧ TokenFrame s t

/-- A token at `s` that raises an error (R131, R132, R134): status ERR, the error and its record
written (`first` the token's first byte), nothing appended. -/
def TokenRaises (s t : State) (err : ErrCode) (cause : Cause) (first : Byte) : Prop :=
  t.dec.port = ⟨.err, err, ⟨cause, s.dec.i, first, s.dec.o⟩⟩ ∧
    t.dec.o = s.dec.o ∧ t.dec.out = s.dec.out ∧ TokenFrame s t

/-- What no encoder step changes (R46, R98): the decoder, the parameters, the schedule, RAW and
`raw_len`. -/
def EmissionFrame (s t : State) : Prop :=
  t.dec = s.dec ∧ t.params = s.params ∧ t.schedule = s.schedule ∧
    t.enc.raw = s.enc.raw ∧ t.enc.rawLen = s.enc.rawLen

/-- An encoder step that emits the token `bs` for `adv` raw bytes. -/
def EmissionDone (s t : State) (adv : Nat) (bs : List Byte) : Prop :=
  t.enc.i = s.enc.i + adv ∧ t.enc.e = s.enc.e + bs.length ∧ HoldsAt t.enc.code s.enc.e bs ∧
    SameOutside s.enc.code t.enc.code s.enc.e bs.length ∧ t.enc.port = s.enc.port ∧
    EmissionFrame s t

/-- An encoder step that raises OutOfMemory (R132, R134): `first` is `RAW[i]`, nothing is appended and
the cursor stays. -/
def EmissionRaises (s t : State) (first : Byte) : Prop :=
  t.enc.port = ⟨.err, .outOfMemory, ⟨.none, s.enc.i, first, s.enc.e⟩⟩ ∧
    t.enc.e = s.enc.e ∧ t.enc.code = s.enc.code ∧ t.enc.i = s.enc.i ∧ EmissionFrame s t

/-- The decoder invariants of R34, with the widths and capacities of R10, R14 to R16. -/
structure DecInv (p : Config.Params) (d : Decoder) : Prop where
  input    : Buffer d.input d.inLen
  cursor   : d.i ≤ d.inLen
  out      : Buffer d.out d.o
  capacity : fits p.outCap d.o = true
  ratio    : d.o ≤ 5 * d.i
  inCap    : fits p.inCap d.inLen = true
  width    : fitsWidth p.addrW (some d.inLen) = true ∧ fitsWidth p.addrW (some d.o) = true
  launch   : d.port.status = .run → fitsWidth p.addrW p.outCap = true
  errs     : d.port.status = .err ↔ d.port.err ≠ .none

/-- The encoder invariants of R34, with the widths and capacities of R10, R20 to R22, but the round
trip. -/
structure EncInv (p : Config.Params) (en : Encoder) : Prop where
  raw       : Buffer en.raw en.rawLen
  cursor    : en.i ≤ en.rawLen
  code      : Buffer en.code en.e
  capacity  : fits p.codeCap en.e = true
  ratio     : en.e ≤ 2 * en.i
  inCap     : fits p.inCap en.rawLen = true
  width     : fitsWidth p.addrW (some en.rawLen) = true ∧ fitsWidth p.addrW (some en.e) = true
  launch    : en.port.status = .run → fitsWidth p.addrW p.codeCap = true
  errs      : en.port.status = .err ↔ en.port.err ≠ .none
  noCorrupt : en.port.err ≠ .corruptStream

/-- The invariants of both blocks (R34). -/
def State.Inv (s : State) : Prop := DecInv s.params s.dec ∧ EncInv s.params s.enc

/-- Decoding what the encoder has emitted so far gives the raw bytes behind its cursor (R34, R118). -/
def RoundTrip (en : Encoder) : Prop :=
  decodeFn none (Memory.bytes en.code) = .ok ((Memory.bytes en.raw).take en.i)

/-- The window of `L` bytes at `i` occurs at `j`, inside the search's range (R101, R102). -/
def OccursAt (raw : Memory) (i j L : Nat) : Prop :=
  i - 2047 ≤ j ∧ j + L ≤ i ∧ ∀ k, k < L → Memory.read raw (j + k) = Memory.read raw (i + k)

/-- The number of bytes a token appends when it completes (R132: "n being the whole token's
appends"). -/
def outputLength : Instr → Nat
  | .lit _ => 1
  | .run payload => payload.length
  | .bref _ lm3 => lengthOf lm3
  | .spair _ => 2

/-- The contract of a match policy (R107), for buffers. -/
def PolicyContract (policy : MatchPolicy) : Prop :=
  ∀ (raw : Memory) (rawLen i j L : Nat), Buffer raw rawLen → policy raw rawLen i = some (j, L) →
    3 ≤ L ∧ L ≤ 10 ∧ i + L ≤ rawLen ∧ j < i ∧ i - j ≤ 2047 ∧
      ∀ t, t < L → Memory.read raw (j + t) = Memory.read raw (i + t)

/-- What the host finds when a call of the encoder has ended (R29, R97, R124, R137): DONE with the result
and its length, or ERR with the error and an OUT_LEN of 0. -/
def EncodeAnswer (en : Encoder) : Except CodecError (List Byte) → Prop
  | .ok bytes => en.port.status = .done ∧ en.readResult = some bytes ∧
      en.readOutLen = some bytes.length
  | .error e => en.port.status = .err ∧ en.port.err = e.err ∧ en.port.errInfo.cause = e.cause ∧
      en.port.errInfo.pos = e.pos ∧ en.port.errInfo.filled = e.filled ∧ en.readOutLen = some 0

/-- The block whose own step is next: the one an event names, or with no event to come the decoder while
it runs, else the encoder (log entry 3); none where a host command is next. -/
def movingBlock (s : State) : Option BlockId :=
  match s.schedule with
  | .decoder :: _ => some .decoder
  | .encoder :: _ => some .encoder
  | .start _ _ :: _ | .reset _ :: _ => none
  | [] => if s.dec.port.status = .run then some .decoder else some .encoder

/-- `n` steps of the machine. -/
def runSteps : Nat → State → Host.Outcome State Fault Refusal
  | 0, s => .next s
  | n + 1, s =>
    match step s with
    | .next t => runSteps n t
    | .fault f => .fault f
    | .refused r => .refused r

end Sys2Proof.Machine
end

