-- ==== Sys2Proof/Certificates/Slice0/Obligations.lean ====
section
/-! DEFINITION. The statements for the provers. Each docstring names the rules of spec/ it formalises.
The words Buffer, HoldsAt, TokenDone, TokenRaises, EmissionDone, EmissionRaises, DecInv, EncInv, RoundTrip,
PolicyContract are in Sys2Proof/Safety.lean. -/

open Sys2Proof Sys2Proof.Machine

/-! ### Encoding -/

/-- Decoding the bytes of a well-formed token, whatever follows them, gives the token and what
follows: no operand bit is lost (R55 to R58, R61, R62). -/
def Obligations.EncodedTokenDecodesBack : Prop :=
  ∀ (i : Instr) (rest : List Byte), i.wf = true → decode (encode i ++ rest) = .ok (i, rest)

/-- What decodes is a well-formed token, and its encoding is the bytes read: the disassembly is
unique (R54, R71). -/
def Obligations.DecodedTokenReencodes : Prop :=
  ∀ (bs : List Byte) (i : Instr) (rest : List Byte), decode bs = .ok (i, rest) →
    i.wf = true ∧ encode i ++ rest = bs

/-- The dispatch map (R54, R63): the first byte alone gives the kind and the length, and exactly one of
the four kinds. -/
def Obligations.FirstByteSelectsTheKind : Prop :=
  ∀ (c : Byte) (rest : List Byte),
    ((c.toNat = 0 ∨ (9 ≤ c.toNat ∧ c.toNat ≤ 0x7F)) →
      decode (c :: rest) = .ok (.lit c, rest) ∧ tokenLength c = 1) ∧
    ((1 ≤ c.toNat ∧ c.toNat ≤ 8) →
      tokenLength c = 1 + c.toNat ∧ (c.toNat ≤ rest.length →
        decode (c :: rest) = .ok (.run (rest.take c.toNat), rest.drop c.toNat))) ∧
    ((0x80 ≤ c.toNat ∧ c.toNat ≤ 0xBF) →
      tokenLength c = 2 ∧ ∀ b r, rest = b :: r → ∃ distance lm3,
        decode (c :: rest) = .ok (.bref distance lm3, r)) ∧
    (0xC0 ≤ c.toNat →
      tokenLength c = 1 ∧ decode (c :: rest) = .ok (.spair (c.setWidth 6), rest))

/-- Truncated tokens are no tokens (R66): a RUN whose count is larger than the bytes left, a BREF whose
first byte is the last; nothing else but the empty sequence is refused (R64). -/
def Obligations.OnlyTruncatedTokensAreRefused : Prop :=
  ∀ (c : Byte) (rest : List Byte),
    (decode (c :: rest) = .error (.truncRun c) ↔
      1 ≤ c.toNat ∧ c.toNat ≤ 8 ∧ rest.length < c.toNat) ∧
    (decode (c :: rest) = .error (.truncBref c) ↔
      0x80 ≤ c.toNat ∧ c.toNat ≤ 0xBF ∧ rest = []) ∧
    ∀ e, decode (c :: rest) = .error e → e = .truncRun c ∨ e = .truncBref c

/-- BREF operands (R61): `distance = (v & 0x3FFF) >> 3`, `length = (v & 0x7) + 3` of the big-endian
`v` (R41); the distance is 0 exactly for `byte0 = 0x80`, `byte1 < 8`. -/
def Obligations.BrefOperandsAssemble : Prop :=
  ∀ (c b : Byte) (rest : List Byte), 0x80 ≤ c.toNat → c.toNat ≤ 0xBF →
    ∃ distance lm3, decode (c :: b :: rest) = .ok (.bref distance lm3, rest) ∧
      distance.toNat = (((c.toNat <<< 8) ||| b.toNat) &&& 0x3FFF) >>> 3 ∧
      lengthOf lm3 = (((c.toNat <<< 8) ||| b.toNat) &&& 0x7) + 3 ∧
      distance.toNat ≤ 2047 ∧ 3 ≤ lengthOf lm3 ∧ lengthOf lm3 ≤ 10 ∧
      (distance.toNat = 0 ↔ c.toNat = 0x80 ∧ b.toNat < 8)

/-- BREF packing (R62): `v = 0x8000 | (distance << 3) | (length - 3)`, `byte0 = v >> 8`, `byte1 = v & 0xFF`,
and it is the unique inverse of R61. -/
def Obligations.BrefPackingInverts : Prop :=
  ∀ (distance length : Nat), 1 ≤ distance → distance ≤ 2047 → 3 ≤ length → length ≤ 10 →
    encode (.bref (BitVec.ofNat 11 distance) (BitVec.ofNat 3 (length - 3))) =
      [BitVec.ofNat 8 (0x80 ||| (distance >>> 5)),
       BitVec.ofNat 8 (((distance &&& 0x1F) <<< 3) ||| (length - 3))] ∧
    (packBref (BitVec.ofNat 11 distance) (BitVec.ofNat 3 (length - 3))).toNat =
      0x8000 ||| (distance <<< 3) ||| (length - 3) ∧
    (0x8000 ||| (distance <<< 3) ||| (length - 3)) >>> 8 = 0x80 ||| (distance >>> 5) ∧
    (0x8000 ||| (distance <<< 3) ||| (length - 3)) &&& 0xFF =
      ((distance &&& 0x1F) <<< 3) ||| (length - 3) ∧
    0x80 ≤ (0x80 ||| (distance >>> 5)) ∧ (0x80 ||| (distance >>> 5)) ≤ 0xBF ∧
    ∀ (c b : Byte), 0x80 ≤ c.toNat → c.toNat ≤ 0xBF →
      (decode [c, b] = .ok (.bref (BitVec.ofNat 11 distance) (BitVec.ofNat 3 (length - 3)), []) ↔
        [c, b] = encode (.bref (BitVec.ofNat 11 distance) (BitVec.ofNat 3 (length - 3))))

/-- SPAIR operand (R60): the token of `byte0` produces, with room for them, the constant 0x20 and
`ch = byte0 XOR 0x80 = byte0 - 0x80`, in 0x40 to 0x7F; and back, `byte0 = ch XOR 0x80 = ch + 0x80`, in
0xC0 to 0xFF. -/
def Obligations.SpairOperandAssembles : Prop :=
  (∀ (c : Byte) (rest : List Byte), 0xC0 ≤ c.toNat →
    (∃ q, decode (c :: rest) = .ok (.spair q, rest) ∧ pairFlip (spairByte q) = c ^^^ 0x80#8 ∧
      ∀ s : State, fits s.params.outCap (s.dec.o + 2) = true →
        ∃ t, exec (.spair q) s = .next t ∧ TokenDone s t 1 [0x20#8, c ^^^ 0x80#8]) ∧
      (c ^^^ 0x80#8).toNat = c.toNat - 0x80 ∧
      0x40 ≤ (c ^^^ 0x80#8).toNat ∧ (c ^^^ 0x80#8).toNat ≤ 0x7F) ∧
  ∀ (ch : Byte), 0x40 ≤ ch.toNat → ch.toNat ≤ 0x7F →
    (ch ^^^ 0x80#8).toNat = ch.toNat + 0x80 ∧ 0xC0 ≤ (ch ^^^ 0x80#8).toNat

/-- A few words written out from the formats of R55 to R58, one of each kind. -/
def Obligations.WrittenOutWordsDecode : Prop :=
  decode [0x48#8] = .ok (.lit 0x48, []) ∧
    decode [0x02#8, 0x80#8, 0x08#8] = .ok (.run [0x80, 0x08], []) ∧
    decode [0xC2#8] = .ok (.spair 0b000010, []) ∧
    decode [0x80#8, 0x15#8] = .ok (.bref 0b00000000010 0b101, []) ∧
    decode [0xBF#8, 0xFF#8] = .ok (.bref 0b11111111111 0b111, [])

/-! ### Reset and the host commands -/

/-- The state right after reset is the first column of R33 (R147): both blocks IDLE, no error, cursors
and lengths 0, buffers empty. (That the schedule is empty and the parameters unbounded is the model's
own: log entries 3 and 4.) -/
def Obligations.ResetStateIsTheResetTable : Prop :=
  State.reset.dec.port.status = .idle ∧ State.reset.dec.port.err = .none ∧
    State.reset.dec.i = 0 ∧ State.reset.dec.o = 0 ∧ State.reset.dec.inLen = 0 ∧
    (∀ a, Memory.read State.reset.dec.input a = none ∧ Memory.read State.reset.dec.out a = none) ∧
    State.reset.enc.port.status = .idle ∧ State.reset.enc.port.err = .none ∧
    State.reset.enc.i = 0 ∧ State.reset.enc.e = 0 ∧ State.reset.enc.rawLen = 0 ∧
    (∀ a, Memory.read State.reset.enc.raw a = none ∧ Memory.read State.reset.enc.code a = none)

/-- Command RESET (R26, R147), in any status: the block is IDLE with no error, cursors and lengths 0,
both buffers empty; the other block and the parameters are as before. -/
def Obligations.ResetCommandClearsTheBlock : Prop :=
  ∀ (s : State) (rest : List Event),
    (s.schedule = .reset .decoder :: rest → ∃ t, step s = .next t ∧
      t.dec.port.status = .idle ∧ t.dec.port.err = .none ∧ t.dec.i = 0 ∧ t.dec.o = 0 ∧
      t.dec.inLen = 0 ∧ (∀ a, Memory.read t.dec.input a = none ∧ Memory.read t.dec.out a = none) ∧
      t.enc = s.enc ∧ t.params = s.params ∧ t.schedule = rest) ∧
    (s.schedule = .reset .encoder :: rest → ∃ t, step s = .next t ∧
      t.enc.port.status = .idle ∧ t.enc.port.err = .none ∧ t.enc.i = 0 ∧ t.enc.e = 0 ∧
      t.enc.rawLen = 0 ∧ (∀ a, Memory.read t.enc.raw a = none ∧ Memory.read t.enc.code a = none) ∧
      t.dec = s.dec ∧ t.params = s.params ∧ t.schedule = rest)

/-- Command START to a block in IDLE, DONE or ERR, within IN_CAP and the launch premise of R10 (R25,
R148): the buffer is loaded, the cursors are 0, the output is empty, there is no error and the status is
RUN; the other block is as before. -/
def Obligations.StartLoadsTheCall : Prop :=
  ∀ (s : State) (buffer : List Byte) (rest : List Event), fits s.params.inCap buffer.length = true →
    fitsWidth s.params.addrW (some buffer.length) = true →
    (s.schedule = .start .decoder buffer :: rest → s.dec.port.status ≠ .run →
      fitsWidth s.params.addrW s.params.outCap = true → ∃ t, step s = .next t ∧
        Buffer t.dec.input buffer.length ∧ HoldsAt t.dec.input 0 buffer ∧
        t.dec.inLen = buffer.length ∧ t.dec.i = 0 ∧ t.dec.o = 0 ∧ Buffer t.dec.out 0 ∧
        t.dec.port.status = .run ∧ t.dec.port.err = .none ∧
        t.enc = s.enc ∧ t.params = s.params ∧ t.schedule = rest) ∧
    (s.schedule = .start .encoder buffer :: rest → s.enc.port.status ≠ .run →
      fitsWidth s.params.addrW s.params.codeCap = true → ∃ t, step s = .next t ∧
        Buffer t.enc.raw buffer.length ∧ HoldsAt t.enc.raw 0 buffer ∧
        t.enc.rawLen = buffer.length ∧ t.enc.i = 0 ∧ t.enc.e = 0 ∧ Buffer t.enc.code 0 ∧
        t.enc.port.status = .run ∧ t.enc.port.err = .none ∧
        t.dec = s.dec ∧ t.params = s.params ∧ t.schedule = rest)

/-- START to a block in RUN is ignored (R25): no state changes, but that the command is spent. -/
def Obligations.StartInRunIsIgnored : Prop :=
  ∀ (s : State) (buffer : List Byte) (rest : List Event),
    (s.schedule = .start .decoder buffer :: rest → s.dec.port.status = .run →
      step s = .next { s with schedule := rest }) ∧
    (s.schedule = .start .encoder buffer :: rest → s.enc.port.status = .run →
      step s = .next { s with schedule := rest })

/-- THE MODEL'S CHOICE, log entry 8, on R25 and R10: a START longer than IN_CAP, or whose sizes break
the launch premise, is refused; the block stays as it was and the machine goes on. -/
def Obligations.RefusedStartLeavesTheBlock : Prop :=
  ∀ (s : State) (buffer : List Byte) (rest : List Event),
    (s.schedule = .start .decoder buffer :: rest → launchOk s.params s.params.outCap buffer.length = false →
      step s = .next { s with schedule := rest }) ∧
    (s.schedule = .start .encoder buffer :: rest → launchOk s.params s.params.codeCap buffer.length = false →
      step s = .next { s with schedule := rest }) ∧
    ∀ cap, launchOk s.params cap buffer.length = false ↔
      ((∃ k, s.params.inCap = some k ∧ k < buffer.length) ∨
        ∃ w, s.params.addrW = some w ∧ (2 ^ w ≤ buffer.length ∨ ∀ k, cap = some k → 2 ^ w ≤ k))

/-! ### Tokens -/

/-- LIT (R75): appends its byte, `i` and `o` grow by 1, and but for the latches nothing else moves; with
no room it raises OutOfMemory. Where `i` stands after the raise is THE MODEL'S READING, log entry 14
(DEDUCED). -/
def Obligations.LitAppendsItsByte : Prop :=
  ∀ (b : Byte) (s : State),
    (fits s.params.outCap (s.dec.o + 1) = true →
      ∃ t, exec (.lit b) s = .next t ∧ TokenDone s t 1 [b]) ∧
    (fits s.params.outCap (s.dec.o + 1) = false →
      ∃ t, exec (.lit b) s = .next t ∧ TokenRaises s t .outOfMemory .none b ∧
        t.dec.i = s.dec.i + 1)

/-- RUN (R76): with its `c` payload bytes inside the buffer and room for them, appends them in order, `i`
grows by `1 + c` and `o` by `c`; else TRUNC_RUN, and after it OutOfMemory, is raised with nothing
appended. That the payload is `IN[i..i+c)` is said by StepRunsTheDecodedToken. Where `i` stands after a
raise is THE MODEL'S READING, log entry 14 (DEDUCED). -/
def Obligations.RunCopiesItsPayload : Prop :=
  ∀ (payload : List Byte) (s : State), (Instr.run payload).wf = true →
    (payload.length ≤ s.dec.inLen - (s.dec.i + 1) →
      fits s.params.outCap (s.dec.o + payload.length) = true →
      ∃ t, exec (.run payload) s = .next t ∧ TokenDone s t (1 + payload.length) payload) ∧
    (s.dec.inLen - (s.dec.i + 1) < payload.length →
      ∃ t, exec (.run payload) s = .next t ∧
        TokenRaises s t .corruptStream .truncRun (BitVec.ofNat 8 payload.length) ∧
        t.dec.i = s.dec.i + 1) ∧
    (payload.length ≤ s.dec.inLen - (s.dec.i + 1) →
      fits s.params.outCap (s.dec.o + payload.length) = false →
      ∃ t, exec (.run payload) s = .next t ∧
        TokenRaises s t .outOfMemory .none (BitVec.ofNat 8 payload.length) ∧
        t.dec.i = s.dec.i + 1)

/-- SPAIR (R77): appends 0x20 and then `0x40 | q` (R57), `i` grows by 1 and `o` by 2; with no room for
both it raises OutOfMemory and appends neither. Where `i` stands after the raise is THE MODEL'S READING,
log entry 14 (DEDUCED). -/
def Obligations.SpairAppendsSpaceAndByte : Prop :=
  ∀ (q : BitVec 6) (s : State),
    (fits s.params.outCap (s.dec.o + 2) = true →
      ∃ t, exec (.spair q) s = .next t ∧ TokenDone s t 1 [0x20#8, 0x40#8 ||| q.setWidth 8]) ∧
    (fits s.params.outCap (s.dec.o + 2) = false →
      ∃ t, exec (.spair q) s = .next t ∧
        TokenRaises s t .outOfMemory .none (0xC0#8 ||| q.setWidth 8) ∧ t.dec.i = s.dec.i + 1)

/-- BREF repeats the pattern of the `distance` bytes before it (R87, R91): byte `k` appended is
`P[k mod distance]` with `P = OUT[o - distance .. o)`; `i` grows by 2 and `o` by the length; but
for the latches nothing else moves. -/
def Obligations.BrefRepeatsThePattern : Prop :=
  ∀ (distance : BitVec 11) (lm3 : BitVec 3) (s : State), Buffer s.dec.out s.dec.o →
    s.dec.i + 1 < s.dec.inLen → 1 ≤ distance.toNat → distance.toNat ≤ s.dec.o →
    fits s.params.outCap (s.dec.o + lengthOf lm3) = true →
    ∃ t bs, exec (.bref distance lm3) s = .next t ∧ TokenDone s t 2 bs ∧
      bs.length = lengthOf lm3 ∧
      ∀ k, k < lengthOf lm3 →
        bs[k]? = Memory.read s.dec.out (s.dec.o - distance.toNat + k % distance.toNat)

/-- The copy loop's order (R48, R90): each byte appended is the byte `distance` behind it in the output
as the token leaves it, bytes of the same token included; with `distance >= length` it is the plain
block copy of R95. -/
def Obligations.BrefReadsItsOwnWrites : Prop :=
  ∀ (distance : BitVec 11) (lm3 : BitVec 3) (s : State), Buffer s.dec.out s.dec.o →
    s.dec.i + 1 < s.dec.inLen → 1 ≤ distance.toNat → distance.toNat ≤ s.dec.o →
    fits s.params.outCap (s.dec.o + lengthOf lm3) = true →
    ∃ t, exec (.bref distance lm3) s = .next t ∧ t.dec.o = s.dec.o + lengthOf lm3 ∧
      Buffer t.dec.out t.dec.o ∧
      (∀ k, k < lengthOf lm3 →
        Memory.read t.dec.out (s.dec.o + k) =
          Memory.read t.dec.out (s.dec.o + k - distance.toNat)) ∧
      (lengthOf lm3 ≤ distance.toNat → ∀ k, k < lengthOf lm3 →
        Memory.read t.dec.out (s.dec.o + k) =
          Memory.read s.dec.out (s.dec.o - distance.toNat + k))

/-- The checks of BREF in their order (R88, R89, R127, R128, R130, R135): truncation, distance 0,
distance above the output, room; each raises with nothing appended. Where `i` stands after each raise is
THE MODEL'S READING, log entry 14 (DEDUCED). -/
def Obligations.BrefChecksInOrder : Prop :=
  ∀ (distance : BitVec 11) (lm3 : BitVec 3) (s : State),
    (s.dec.inLen ≤ s.dec.i + 1 → ∃ t, exec (.bref distance lm3) s = .next t ∧
      TokenRaises s t .corruptStream .truncBref (highByte (packBref distance lm3)) ∧
      t.dec.i = s.dec.i + 1) ∧
    (s.dec.i + 1 < s.dec.inLen → distance.toNat = 0 →
      ∃ t, exec (.bref distance lm3) s = .next t ∧
        TokenRaises s t .corruptStream .distZero (highByte (packBref distance lm3)) ∧
        t.dec.i = s.dec.i + 2) ∧
    (s.dec.i + 1 < s.dec.inLen → s.dec.o < distance.toNat →
      ∃ t, exec (.bref distance lm3) s = .next t ∧
        TokenRaises s t .corruptStream .distance (highByte (packBref distance lm3)) ∧
        t.dec.i = s.dec.i + 2) ∧
    (s.dec.i + 1 < s.dec.inLen → 1 ≤ distance.toNat → distance.toNat ≤ s.dec.o →
      fits s.params.outCap (s.dec.o + lengthOf lm3) = false →
      ∃ t, exec (.bref distance lm3) s = .next t ∧
        TokenRaises s t .outOfMemory .none (highByte (packBref distance lm3)) ∧
        t.dec.i = s.dec.i + 2)

/-- Tokens are atomic with respect to errors (R131, R136), for every token in every state: where it
leaves the status as it was it has made all its appends; else it has raised an error and appended
nothing. -/
def Obligations.TokensAppendAllOrNothing : Prop :=
  ∀ (i : Instr) (s t : State), exec i s = .next t →
    (t.dec.port = s.dec.port ∧ t.dec.o = s.dec.o + outputLength i ∧
      ∀ a, a < s.dec.o → Memory.read t.dec.out a = Memory.read s.dec.out a) ∨
    (t.dec.port.status = .err ∧ t.dec.port.err ≠ .none ∧ t.dec.port.errInfo.pos = s.dec.i ∧
      t.dec.port.errInfo.filled = s.dec.o ∧ t.dec.o = s.dec.o ∧ t.dec.out = s.dec.out)

/-- The frame of every token (R74, R46, R79): when `exec` gives a next state, the encoder, the
parameters, the schedule, IN and `in_len` are as before, and every byte of OUT outside the `n` bytes
at the old `o` reads as before, `n` the token's output length. `i` grows, and by no more than the token's
bytes; that it grows for a token that raises too is THE MODEL'S READING, log entry 14 (DEDUCED). -/
def Obligations.TokensLeaveTheRestAlone : Prop :=
  ∀ (i : Instr) (s t : State), exec i s = .next t →
    TokenFrame s t ∧ SameOutside s.dec.out t.dec.out s.dec.o (outputLength i) ∧
      s.dec.i < t.dec.i ∧ t.dec.i ≤ s.dec.i + (encode i).length

/-! ### The decoder's step -/

/-- A step runs the decoded token (R74): where IN holds the bytes of a well-formed token at `i`, `step`
with no event to come is `exec` of it, and with a decoder event next it is `exec` of it with the event
taken off. That with no event to come a running decoder moves, whatever the encoder does, is THE MODEL'S
CHOICE, log entry 3. -/
def Obligations.StepRunsTheDecodedToken : Prop :=
  ∀ (i : Instr) (s : State), i.wf = true → s.dec.port.status = .run →
    HoldsAt s.dec.input s.dec.i (encode i) → s.dec.i + (encode i).length ≤ s.dec.inLen →
    (s.schedule = [] → step s = exec i s) ∧
    ∀ rest, s.schedule = .decoder :: rest → step s = exec i { s with schedule := rest }

/-- End of the decoder's run (R80): the step that finds `i >= in_len` sets DONE and changes nothing
else. That the decoder moves with no event to come, whatever the encoder does, is THE MODEL'S CHOICE,
log entry 3. -/
def Obligations.DecoderRunEndsDone : Prop :=
  ∀ (s : State), s.dec.port.status = .run → s.schedule = [] → s.dec.inLen ≤ s.dec.i →
    step s = .next { s with dec := { s.dec with port := { s.dec.port with status := .done } } }

/-- TRUNC_RUN (R129): a count byte that claims more bytes than remain raises CorruptStream in the
step that meets it. That the decoder moves with no event to come, whatever the encoder does, is THE
MODEL'S CHOICE, log entry 3; where `i` stands after the raise is its reading, log entry 14 (DEDUCED). -/
def Obligations.TruncatedRunRaises : Prop :=
  ∀ (s : State) (c : Byte), s.dec.port.status = .run → s.schedule = [] →
    s.dec.i < s.dec.inLen → Memory.read s.dec.input s.dec.i = some c → 1 ≤ c.toNat → c.toNat ≤ 8 →
    s.dec.inLen - (s.dec.i + 1) < c.toNat →
    ∃ t, step s = .next t ∧ TokenRaises s t .corruptStream .truncRun c ∧ t.dec.i = s.dec.i + 1

/-- TRUNC_BREF (R130): a back-reference whose first byte is the last of the buffer raises
CorruptStream. That the decoder moves with no event to come, whatever the encoder does, is THE MODEL'S
CHOICE, log entry 3; where `i` stands after the raise is its reading, log entry 14 (DEDUCED). -/
def Obligations.TruncatedBrefRaises : Prop :=
  ∀ (s : State) (c : Byte), s.dec.port.status = .run → s.schedule = [] →
    s.dec.i + 1 = s.dec.inLen → Memory.read s.dec.input s.dec.i = some c → 0x80 ≤ c.toNat →
    c.toNat ≤ 0xBF →
    ∃ t, step s = .next t ∧ TokenRaises s t .corruptStream .truncBref c ∧ t.dec.i = s.dec.i + 1

/-- A block in IDLE, DONE or ERR does nothing until commanded, and an error is sticky (R138, R145,
R146): with no command to it next, every step leaves all its state. -/
def Obligations.StoppedBlocksKeepTheirState : Prop :=
  ∀ (s t : State), step s = .next t →
    (s.dec.port.status ≠ .run → (∀ buffer rest, s.schedule ≠ .start .decoder buffer :: rest) →
      (∀ rest, s.schedule ≠ .reset .decoder :: rest) → t.dec = s.dec) ∧
    (s.enc.port.status ≠ .run → (∀ buffer rest, s.schedule ≠ .start .encoder buffer :: rest) →
      (∀ rest, s.schedule ≠ .reset .encoder :: rest) → t.enc = s.enc)

/-- The only status transitions (R18, R24): to RUN by START out of IDLE, DONE or ERR; RUN to DONE or ERR
by the block's own step, at the end of its input or by an error; any to IDLE by RESET. With no event to
come, which block's step is next is THE MODEL'S CHOICE, log entry 3. -/
def Obligations.StatusMovesOnlyAsStated : Prop :=
  ∀ (s t : State), step s = .next t →
    (t.dec.port.status ≠ s.dec.port.status →
      (t.dec.port.status = .run ∧ ∃ buffer rest, s.schedule = .start .decoder buffer :: rest) ∨
      (t.dec.port.status = .idle ∧ ∃ rest, s.schedule = .reset .decoder :: rest) ∨
      (s.dec.port.status = .run ∧ movingBlock s = some .decoder ∧ t.dec.port.status = .done ∧
        s.dec.inLen ≤ s.dec.i) ∨
      (s.dec.port.status = .run ∧ movingBlock s = some .decoder ∧ t.dec.port.status = .err ∧
        t.dec.port.err ≠ .none)) ∧
    (t.enc.port.status ≠ s.enc.port.status →
      (t.enc.port.status = .run ∧ ∃ buffer rest, s.schedule = .start .encoder buffer :: rest) ∨
      (t.enc.port.status = .idle ∧ ∃ rest, s.schedule = .reset .encoder :: rest) ∨
      (s.enc.port.status = .run ∧ movingBlock s = some .encoder ∧ t.enc.port.status = .done ∧
        s.enc.rawLen ≤ s.enc.i) ∨
      (s.enc.port.status = .run ∧ movingBlock s = some .encoder ∧ t.enc.port.status = .err ∧
        t.enc.port.err = .outOfMemory))

/-- Every token step consumes stream (R82): from a good state in RUN with stream left, the decoder's step
has a next state, in which `i` has grown and is still within the buffer. That the decoder moves with no
event to come is THE MODEL'S CHOICE, log entry 3; that `i` grows in a step that raises too is its reading,
log entry 14 (DEDUCED). -/
def Obligations.TokenStepsConsumeStream : Prop :=
  ∀ (s : State), DecInv s.params s.dec → s.dec.port.status = .run → s.schedule = [] →
    s.dec.i < s.dec.inLen →
    ∃ t, step s = .next t ∧ s.dec.i < t.dec.i ∧ t.dec.i ≤ t.dec.inLen ∧
      t.dec.inLen = s.dec.inLen ∧ t.dec.port.status ≠ .done ∧ t.dec.port.status ≠ .idle

/-- Every call of the decoder ends (R73, R82): after at most `in_len - i + 1` steps the status is DONE
or ERR. That these are all steps of the decoder, and so leave a running encoder alone, is THE MODEL'S
CHOICE, log entry 3: with no event to come the decoder moves first. -/
def Obligations.DecoderCallEnds : Prop :=
  ∀ (s : State), DecInv s.params s.dec → s.dec.port.status = .run → s.schedule = [] →
    ∃ n t, n ≤ s.dec.inLen - s.dec.i + 1 ∧ runSteps n s = .next t ∧
      (t.dec.port.status = .done ∨ t.dec.port.status = .err) ∧ t.enc = s.enc

/-! ### Invariants over every step -/

/-- Only a host command changes an input buffer (R14, R20, R35): any other step leaves IN, `in_len`,
RAW and `raw_len`. -/
def Obligations.InputsAreImmutable : Prop :=
  ∀ (s t : State), step s = .next t →
    (∀ block buffer rest, s.schedule ≠ .start block buffer :: rest) →
    (∀ block rest, s.schedule ≠ .reset block :: rest) →
    t.dec.input = s.dec.input ∧ t.dec.inLen = s.dec.inLen ∧
      t.enc.raw = s.enc.raw ∧ t.enc.rawLen = s.enc.rawLen

/-- Outputs are append only (R16, R22): in a step that is no host command, `o` and `e` do not shrink and
no byte below them changes. -/
def Obligations.OutputsAreAppendOnly : Prop :=
  ∀ (s t : State), step s = .next t →
    (∀ block buffer rest, s.schedule ≠ .start block buffer :: rest) →
    (∀ block rest, s.schedule ≠ .reset block :: rest) →
    s.dec.o ≤ t.dec.o ∧ s.enc.e ≤ t.enc.e ∧
      (∀ a, a < s.dec.o → Memory.read t.dec.out a = Memory.read s.dec.out a) ∧
      (∀ a, a < s.enc.e → Memory.read t.enc.code a = Memory.read s.enc.code a)

/-- The parameters are fixed (R10, R13; that they stand in State is the model's choice, log entry 4):
no step changes them. -/
def Obligations.ParametersAreFixed : Prop :=
  ∀ (s t : State), step s = .next t → t.params = s.params

/-- Every step keeps the decoder's invariants (R34): `i <= in_len`, `o = len(OUT)`, `o <= OUT_CAP`,
`o <= 5 * i`, status ERR exactly with an error, no cursor past the width. -/
def Obligations.StepKeepsDecoderInvariants : Prop :=
  ∀ (s t : State), DecInv s.params s.dec → step s = .next t → DecInv t.params t.dec

/-- Every step keeps the encoder's invariants (R34): `i <= raw_len`, `e = len(CODE)`, `e <= CODE_CAP`,
`e <= 2 * i`, status ERR exactly with an error, never CorruptStream. -/
def Obligations.StepKeepsEncoderInvariants : Prop :=
  ∀ (s t : State), EncInv s.params s.enc → step s = .next t → EncInv t.params t.enc

/-- Every step keeps the round trip (R34, R118): decoding what the encoder has emitted gives the raw
bytes behind its cursor. -/
def Obligations.StepKeepsTheRoundTrip : Prop :=
  ∀ (s t : State), EncInv s.params s.enc → RoundTrip s.enc → step s = .next t → RoundTrip t.enc

/-- Reset meets the invariants (R33, R34). -/
def Obligations.ResetMeetsTheInvariants : Prop :=
  State.reset.Inv ∧ RoundTrip State.reset.enc

/-- Every step keeps all four memories in canonical form, from every state whose memories are. -/
def Obligations.StepKeepsMemoriesCanonical : Prop :=
  ∀ (s t : State),
    Memory.wf s.dec.input ∧ Memory.wf s.dec.out ∧ Memory.wf s.enc.raw ∧ Memory.wf s.enc.code →
    step s = .next t →
    Memory.wf t.dec.input ∧ Memory.wf t.dec.out ∧ Memory.wf t.enc.raw ∧ Memory.wf t.enc.code

/-- No access is ever out of bounds (R36, R37, R45, R94): from a good state every step has a next
state. -/
def Obligations.GoodStatesAlwaysStep : Prop :=
  ∀ (s : State), s.Inv → ∃ t, step s = .next t

/-- The blocks share nothing (R2, R46, R144): two machines that agree on the decoder, the parameters and
the schedule agree on the decoder after a step, whatever their encoders hold; and the same for the
encoder where the schedule says who moves. With no event to come the decoder moves first, THE MODEL'S
CHOICE, log entry 3: on it rest the decoder's clause for an empty schedule and the leaving out of the
empty schedule in the encoder's. -/
def Obligations.BlocksShareNothing : Prop :=
  ∀ (s s' t t' : State), s.params = s'.params → s.schedule = s'.schedule →
    step s = .next t → step s' = .next t' →
    (s.dec = s'.dec → t.dec = t'.dec) ∧
    (s.schedule ≠ [] → s.enc = s'.enc → t.enc = t'.enc)

/-! ### The blocks as functions -/

/-- The decoder computes `decode(IN, OUT_CAP)` (R73, R86): a call begun with START ends DONE with the
result, or ERR with the error, that the function gives. That after START, with no event to come, the
decoder moves before a running encoder (the bound, and the encoder left alone) is THE MODEL'S CHOICE, log
entry 3. -/
def Obligations.DecoderComputesDecode : Prop :=
  ∀ (s : State) (buffer : List Byte), s.schedule = [.start .decoder buffer] →
    s.dec.port.status ≠ .run → launchOk s.params s.params.outCap buffer.length = true →
    ∃ n t, n ≤ buffer.length + 2 ∧ runSteps n s = .next t ∧ t.enc = s.enc ∧
      match decodeFn s.params.outCap buffer with
      | .ok bytes => t.dec.port.status = .done ∧ t.dec.readResult = some bytes ∧
          t.dec.readOutLen = some bytes.length
      | .error e => t.dec.port.status = .err ∧ t.dec.port.err = e.err ∧
          t.dec.port.errInfo.cause = e.cause ∧ t.dec.port.errInfo.pos = e.pos ∧
          t.dec.port.errInfo.filled = e.filled ∧ t.dec.readOutLen = some 0

/-- The encoder computes `encode(RAW, CODE_CAP)` (R97, R124), whatever the decoder holds, running or
not (R2, R144): START and then at least `len(buffer) + 1` encoder steps end DONE with the result, or ERR
with the error, that the function gives, and leave the decoder alone. The second clause, a call with no
event after START, rests on THE MODEL'S CHOICE of log entry 3: with an empty schedule the encoder moves
when the decoder is not running. -/
def Obligations.EncoderComputesEncode : Prop :=
  ∀ (s : State) (buffer : List Byte), s.enc.port.status ≠ .run →
    launchOk s.params s.params.codeCap buffer.length = true →
    (∀ k rest, buffer.length + 1 ≤ k →
      s.schedule = .start .encoder buffer :: (List.replicate k .encoder ++ rest) →
      ∃ t, runSteps (k + 1) s = .next t ∧ t.dec = s.dec ∧ t.schedule = rest ∧
        EncodeAnswer t.enc (encodeFn s.params.codeCap buffer)) ∧
    (s.schedule = [.start .encoder buffer] → s.dec.port.status ≠ .run →
      ∃ n t, n ≤ buffer.length + 2 ∧ runSteps n s = .next t ∧ t.dec = s.dec ∧
        EncodeAnswer t.enc (encodeFn s.params.codeCap buffer))

/-- The round trip for every conforming encoder (R97, R107, R118): whatever match policy meets the
contract, encoding succeeds with unbounded room and decoding gives the raw bytes back. -/
def Obligations.EveryConformingEncoderRoundTrips : Prop :=
  ∀ (policy : MatchPolicy), PolicyContract policy → ∀ (raw : List Byte),
    ∃ code, encodeFnWith policy none raw = .ok code ∧ decodeFn none code = .ok raw

/-- Sizes (R117, R123): the encoder's result is at most twice the input, and with that room it never runs
out of memory. -/
def Obligations.EncodingAtMostDoubles : Prop :=
  ∀ (raw : List Byte) (cap : Option Nat), fits cap (2 * raw.length) = true →
    ∃ code, encodeFn cap raw = .ok code ∧ code.length ≤ 2 * raw.length

/-- Sizes (R83, R150): the decoder's result is at most five times the stream, and with that room
OutOfMemory never occurs. -/
def Obligations.DecodingAtMostQuintuples : Prop :=
  ∀ (stream : List Byte) (cap : Option Nat), fits cap (5 * stream.length) = true →
    match decodeFn cap stream with
    | .ok bytes => bytes.length ≤ 5 * stream.length
    | .error e => e.err = .corruptStream

/-- Passthrough (R121): plain bytes, no space before a pair character and no match anywhere: the
result is the input. -/
def Obligations.PlainTextPassesThrough : Prop :=
  ∀ (raw : List Byte), (∀ b ∈ raw, plain b = true) →
    (∀ k b, raw[k]? = some 0x20#8 → raw[k + 1]? = some b → pairchar b = false) →
    (∀ i, i < raw.length → refMatch (Memory.ofBytes raw) raw.length i = none) →
    encodeFn none raw = .ok raw

/-- What the encoder emits (R104, R115): each token it emits decodes, by itself, to one well-formed token:
a BREF with `3 <= length <= distance <= 2047`, a RUN of 1 to 8 bytes none of them plain, a plain LIT, or
a SPAIR. -/
def Obligations.EmittedTokensStayInRange : Prop :=
  ∀ (raw : List Byte) (i : Nat) (c : Byte), raw[i]? = some c →
    ∃ instr, decode (emittedToken refMatch raw i c).1 = .ok (instr, []) ∧ instr.wf = true ∧
      match instr with
      | .lit b => plain b = true
      | .run payload => 1 ≤ payload.length ∧ payload.length ≤ 8 ∧ ∀ b ∈ payload, plain b = false
      | .bref distance lm3 => 3 ≤ lengthOf lm3 ∧ lengthOf lm3 ≤ distance.toNat ∧ distance.toNat ≤ 2047
      | .spair _ => True

/-! ### The encoder -/

/-- The match search in words (R99 to R103): the longest length from 10 down to 3 that occurs in the
window, at its nearest position; none without the margin or without an occurrence. -/
def Obligations.RefMatchIsLongestThenNearest : Prop :=
  ∀ (raw : Memory) (rawLen i : Nat), Buffer raw rawLen →
    match refMatch raw rawLen i with
    | some (j, L) => 10 ≤ i ∧ 10 ≤ rawLen - i ∧ 3 ≤ L ∧ L ≤ 10 ∧ OccursAt raw i j L ∧
        (∀ j', j < j' → ¬ OccursAt raw i j' L) ∧
        ∀ L', L < L' → L' ≤ 10 → ∀ j', ¬ OccursAt raw i j' L'
    | none => ¬ (10 ≤ i ∧ 10 ≤ rawLen - i) ∨
        ∀ L, 3 ≤ L → L ≤ 10 → ∀ j, ¬ OccursAt raw i j L

/-- The reference policy meets the contract of R107, and its distance is at least the length (R104,
R106). -/
def Obligations.RefMatchMeetsTheContract : Prop :=
  PolicyContract refMatch ∧
    ∀ (raw : Memory) (rawLen i j L : Nat), refMatch raw rawLen i = some (j, L) →
      3 ≤ L ∧ L ≤ i - j ∧ i - j ≤ 2047 ∧ i - j ≤ i

/-- The search over its registers (R108): enough micro-steps end, and then their result is that of
`ref_match`. -/
def Obligations.SearchMicroStepsReachRefMatch : Prop :=
  ∀ (raw : Memory) (rawLen i : Nat) (r : EncLatches), Buffer raw rawLen → 10 ≤ i →
    10 ≤ rawLen - i →
    ∃ n, searchEnded (searchRun raw i n (searchStart i r)) = true ∧
      searchResult (searchRun raw i n (searchStart i r)) = refMatch raw rawLen i

/-- The encoder moves when the schedule says so, or when it is empty and the decoder is not running
(R98; the schedule is the model's own, log entry 3). -/
def Obligations.EncoderMovesWhenScheduled : Prop :=
  ∀ (s : State),
    (∀ rest, s.schedule = .encoder :: rest → step s = encoderStep { s with schedule := rest }) ∧
    (s.schedule = [] → s.dec.port.status ≠ .run → step s = encoderStep s)

/-- EMIT_BREF (R105): where the policy finds a match, the two bytes of the back-reference are appended,
`e` grows by 2 and `i` by the length, still within RAW; with no room for both, OutOfMemory. -/
def Obligations.EmitBrefAppendsTheReference : Prop :=
  ∀ (s : State) (j L : Nat), EncInv s.params s.enc → s.enc.port.status = .run →
    refMatch s.enc.raw s.enc.rawLen s.enc.i = some (j, L) →
    (fits s.params.codeCap (s.enc.e + 2) = true →
      ∃ t, encoderStep s = .next t ∧ t.enc.i ≤ s.enc.rawLen ∧
        EmissionDone s t L [BitVec.ofNat 8 (0x80 ||| ((s.enc.i - j) >>> 5)),
          BitVec.ofNat 8 ((((s.enc.i - j) &&& 0x1F) <<< 3) ||| (L - 3))]) ∧
    (fits s.params.codeCap (s.enc.e + 2) = false →
      ∃ t c, encoderStep s = .next t ∧ Memory.read s.enc.raw s.enc.i = some c ∧ EmissionRaises s t c)

/-- EMIT_SPAIR (R112): no match, a space, and a pair character after it: one byte, `n XOR 0x80`; `i`
grows by 2; with no room for it, OutOfMemory. -/
def Obligations.EmitSpairAppendsThePair : Prop :=
  ∀ (s : State) (n : Byte), s.enc.port.status = .run →
    refMatch s.enc.raw s.enc.rawLen s.enc.i = none → s.enc.i + 1 < s.enc.rawLen →
    Memory.read s.enc.raw s.enc.i = some 0x20#8 → Memory.read s.enc.raw (s.enc.i + 1) = some n →
    pairchar n = true →
    (fits s.params.codeCap (s.enc.e + 1) = true →
      ∃ t, encoderStep s = .next t ∧ EmissionDone s t 2 [n ^^^ 0x80#8]) ∧
    (fits s.params.codeCap (s.enc.e + 1) = false →
      ∃ t, encoderStep s = .next t ∧ EmissionRaises s t 0x20#8)

/-- EMIT_LIT (R113): no match, a plain byte that is not a space before a pair character: the byte
itself; `i` grows by 1; with no room for it, OutOfMemory. -/
def Obligations.EmitLitAppendsTheByte : Prop :=
  ∀ (s : State) (c : Byte), s.enc.port.status = .run →
    refMatch s.enc.raw s.enc.rawLen s.enc.i = none → s.enc.i < s.enc.rawLen →
    Memory.read s.enc.raw s.enc.i = some c → plain c = true →
    (c = 0x20#8 → s.enc.i + 1 < s.enc.rawLen →
      ∃ n, Memory.read s.enc.raw (s.enc.i + 1) = some n ∧ pairchar n = false) →
    (fits s.params.codeCap (s.enc.e + 1) = true →
      ∃ t, encoderStep s = .next t ∧ EmissionDone s t 1 [c]) ∧
    (fits s.params.codeCap (s.enc.e + 1) = false →
      ∃ t, encoderStep s = .next t ∧ EmissionRaises s t c)

/-- EMIT_RUN (R114): no match and a byte that is not plain: the longest run of bytes that are not
plain, cut to 8, behind its count; `i` grows by the count; with no room for all of it, OutOfMemory. -/
def Obligations.EmitRunAppendsTheRun : Prop :=
  ∀ (s : State) (payload : List Byte), EncInv s.params s.enc → s.enc.port.status = .run →
    refMatch s.enc.raw s.enc.rawLen s.enc.i = none →
    1 ≤ payload.length → payload.length ≤ 8 → HoldsAt s.enc.raw s.enc.i payload →
    s.enc.i + payload.length ≤ s.enc.rawLen → (∀ b ∈ payload, plain b = false) →
    (payload.length = 8 ∨ s.enc.i + payload.length = s.enc.rawLen ∨
      ∃ b, Memory.read s.enc.raw (s.enc.i + payload.length) = some b ∧ plain b = true) →
    (fits s.params.codeCap (s.enc.e + 1 + payload.length) = true →
      ∃ t, encoderStep s = .next t ∧
        EmissionDone s t payload.length (BitVec.ofNat 8 payload.length :: payload)) ∧
    (fits s.params.codeCap (s.enc.e + 1 + payload.length) = false →
      ∃ t c, encoderStep s = .next t ∧ payload[0]? = some c ∧ EmissionRaises s t c)

/-- OutOfMemory of the encoder (R132, R134): where the token that R124 emits here does not fit, the step
raises OutOfMemory with `(NONE, i, RAW[i], e)` and appends nothing. -/
def Obligations.EncoderRaisesWhenFull : Prop :=
  ∀ (s : State) (c : Byte), EncInv s.params s.enc → s.enc.port.status = .run →
    s.enc.i < s.enc.rawLen → Memory.read s.enc.raw s.enc.i = some c →
    fits s.params.codeCap
      (s.enc.e + (emittedToken refMatch (Memory.bytes s.enc.raw) s.enc.i c).1.length) = false →
    ∃ t, encoderStep s = .next t ∧ EmissionRaises s t c

/-- End of the encoder's run (R110): the step that finds `i >= raw_len` sets DONE and changes nothing
else. -/
def Obligations.EncoderRunEndsDone : Prop :=
  ∀ (s : State), s.enc.port.status = .run → s.enc.rawLen ≤ s.enc.i →
    encoderStep s =
      .next { s with enc := { s.enc with port := { s.enc.port with status := .done } } }

/-- The encoder raises no CorruptStream (R141): from every state whose encoder has not, no step makes
it. -/
def Obligations.EncoderNeverCorrupt : Prop :=
  ∀ (s t : State), s.enc.port.err ≠ .corruptStream → step s = .next t →
    t.enc.port.err ≠ .corruptStream

/-! ### The host's registers -/

/-- The registers the host reads (R27, R28, R133): STATUS at any time; in RUN nothing else; each block's
IN_LEN is `in_len` or `raw_len`, which START loads (StartLoadsTheCall) and nothing else but RESET changes
(InputsAreImmutable); each block's OUT_LEN is `o` or `e` in DONE and 0 in IDLE and ERR; ERR_INFO in ERR
only; the codes of the tables. -/
def Obligations.HostRegistersRead : Prop :=
  (∀ (port : Port) (filled len : Nat),
    (port.status = .idle → port.readStatus = 0 ∧ port.readOutLen filled = some 0 ∧
      port.readErrInfo = none) ∧
    (port.status = .run → port.readStatus = 1 ∧ port.readErr = none ∧
      port.readOutLen filled = none ∧ port.readErrInfo = none ∧ port.readInLen len = none) ∧
    (port.status = .done → port.readStatus = 2 ∧ port.readOutLen filled = some filled ∧
      port.readErrInfo = none) ∧
    (port.status = .err → port.readStatus = 3 ∧ port.readOutLen filled = some 0 ∧
      port.readErrInfo = some port.errInfo) ∧
    (port.status ≠ .run → port.readErr = some port.err.code ∧ port.readInLen len = some len)) ∧
  (∀ d : Decoder,
    (d.port.status ≠ .run → d.readInLen = some d.inLen) ∧
    (d.port.status = .idle ∨ d.port.status = .err → d.readOutLen = some 0) ∧
    (d.port.status = .done → d.readOutLen = some d.o) ∧
    (d.port.status = .run → d.readInLen = none ∧ d.readOutLen = none)) ∧
  (∀ en : Encoder,
    (en.port.status ≠ .run → en.readInLen = some en.rawLen) ∧
    (en.port.status = .idle ∨ en.port.status = .err → en.readOutLen = some 0) ∧
    (en.port.status = .done → en.readOutLen = some en.e) ∧
    (en.port.status = .run → en.readInLen = none ∧ en.readOutLen = none)) ∧
  ErrCode.none.code = 0 ∧ ErrCode.corruptStream.code = 1 ∧ ErrCode.outOfMemory.code = 2 ∧
  (∀ e : ErrCode, e.code ≠ 3) ∧
  Cause.none.code = 0 ∧ Cause.distance.code = 1 ∧ Cause.distZero.code = 2 ∧
  Cause.truncRun.code = 3 ∧ Cause.truncBref.code = 4

/-- The result (R28, R29, R137): in DONE the host reads the bytes of the output, `OUT_LEN` of them; in
no other status does it read any. -/
def Obligations.ResultReadsBack : Prop :=
  ∀ (s : State), s.Inv →
    (s.dec.port.status = .done →
      s.dec.readResult = some (Memory.bytes s.dec.out) ∧
        s.dec.readOutLen = some (Memory.bytes s.dec.out).length) ∧
    (s.enc.port.status = .done →
      s.enc.readResult = some (Memory.bytes s.enc.code) ∧
        s.enc.readOutLen = some (Memory.bytes s.enc.code).length) ∧
    (s.dec.port.status ≠ .done → s.dec.readResult = none) ∧
    (s.enc.port.status ≠ .done → s.enc.readResult = none)
end

