-- ==== Sys2Proof/Laws/Decode.lean ====
section
/-! SUPPORT. The fields of a token as numbers, and that packing and extracting them are inverse (R58, R60
to R62). -/

namespace Sys2Proof

/-- A field below a shifted one adds to it. -/
theorem shift_or_eq_add {a b k : Nat} (hb : b < 2^k) : (a <<< k) ||| b = a * 2^k + b := by
  rw [← Nat.shiftLeft_add_eq_or_of_lt hb, Nat.shiftLeft_eq]

theorem tokenValue_toNat (c b : Byte) : (tokenValue c b).toNat = c.toNat * 256 + b.toNat := by
  have hc := c.isLt; have hb := b.isLt
  simp only [tokenValue, BitVec.toNat_or, BitVec.toNat_shiftLeft, BitVec.toNat_setWidth]
  rw [Nat.mod_eq_of_lt (a := c.toNat) (by omega), Nat.mod_eq_of_lt (a := b.toNat) (by omega),
    Nat.mod_eq_of_lt (a := c.toNat <<< 8) (by rw [Nat.shiftLeft_eq]; omega), shift_or_eq_add hb]; norm_num

theorem fieldDistance_toNat (v : Half) : (fieldDistance v).toNat = (v.toNat % 2^14) / 8 := by
  simp only [fieldDistance, BitVec.toNat_setWidth, BitVec.toNat_ushiftRight, BitVec.toNat_and,
    BitVec.toNat_ofNat]
  rw [show (16383 % 2^16 : Nat) = 2^14 - 1 by norm_num, Nat.and_two_pow_sub_one_eq_mod,
    Nat.shiftRight_eq_div_pow, Nat.mod_eq_of_lt]
  omega

theorem fieldLm3_toNat (v : Half) : (fieldLm3 v).toNat = v.toNat % 8 := by
  simp only [fieldLm3, BitVec.toNat_setWidth, BitVec.toNat_and, BitVec.toNat_ofNat]
  rw [show (7 % 2^16 : Nat) = 2^3 - 1 by norm_num, Nat.and_two_pow_sub_one_eq_mod]
  omega

theorem packBref_toNat (d : BitVec 11) (l : BitVec 3) :
    (packBref d l).toNat = 0x8000 + d.toNat * 8 + l.toNat := by
  have hd := d.isLt; have hl := l.isLt
  simp only [packBref, BitVec.toNat_or, BitVec.toNat_shiftLeft, BitVec.toNat_setWidth,
    BitVec.toNat_ofNat]
  rw [Nat.mod_eq_of_lt (a := d.toNat) (by omega), Nat.mod_eq_of_lt (a := l.toNat) (by omega),
    Nat.mod_eq_of_lt (a := d.toNat <<< 3) (by rw [Nat.shiftLeft_eq]; omega)]
  rw [show (32768 % 2^16 : Nat) = 2 <<< 14 by decide,
    shift_or_eq_add (k := 14) (by rw [Nat.shiftLeft_eq]; omega), Nat.shiftLeft_eq,
    show 2 * 2^14 + d.toNat * 2^3 = (2 * 2^11 + d.toNat) <<< 3 by rw [Nat.shiftLeft_eq]; omega,
    shift_or_eq_add (k := 3) (by omega)]
  omega

theorem highByte_toNat (v : Half) : (highByte v).toNat = v.toNat / 256 := by
  have := v.isLt
  simp only [highByte, BitVec.toNat_setWidth, BitVec.toNat_ushiftRight]
  rw [Nat.shiftRight_eq_div_pow, Nat.mod_eq_of_lt (by omega)]

theorem lowByte_toNat (v : Half) : (lowByte v).toNat = v.toNat % 256 := by
  simp only [lowByte, BitVec.toNat_setWidth, BitVec.toNat_and, BitVec.toNat_ofNat]
  rw [show (255 % 2^16 : Nat) = 2^8 - 1 by norm_num, Nat.and_two_pow_sub_one_eq_mod]
  omega

theorem tokenValue_bytes (v : Half) : tokenValue (highByte v) (lowByte v) = v := by
  apply BitVec.eq_of_toNat_eq
  rw [tokenValue_toNat, highByte_toNat, lowByte_toNat]; omega

theorem fieldDistance_pack (d : BitVec 11) (l : BitVec 3) : fieldDistance (packBref d l) = d := by
  apply BitVec.eq_of_toNat_eq
  have hd := d.isLt; have hl := l.isLt
  rw [fieldDistance_toNat, packBref_toNat]; omega

theorem fieldLm3_pack (d : BitVec 11) (l : BitVec 3) : fieldLm3 (packBref d l) = l := by
  apply BitVec.eq_of_toNat_eq
  have hd := d.isLt; have hl := l.isLt
  rw [fieldLm3_toNat, packBref_toNat]; omega

theorem high_pack (d : BitVec 11) (l : BitVec 3) :
    0x80 ≤ (highByte (packBref d l)).toNat ∧ (highByte (packBref d l)).toNat ≤ 0xBF := by
  have hd := d.isLt; have hl := l.isLt
  rw [highByte_toNat, packBref_toNat]; omega

theorem pack_fields (c b : Byte) (h1 : 0x80 ≤ c.toNat) (h2 : c.toNat ≤ 0xBF) :
    packBref (fieldDistance (tokenValue c b)) (fieldLm3 (tokenValue c b)) = tokenValue c b := by
  apply BitVec.eq_of_toNat_eq
  have := b.isLt
  rw [packBref_toNat, fieldDistance_toNat, fieldLm3_toNat, tokenValue_toNat]; omega

theorem bytes_tokenValue (c b : Byte) : highByte (tokenValue c b) = c ∧ lowByte (tokenValue c b) = b := by
  have := b.isLt; have := c.isLt
  constructor <;> apply BitVec.eq_of_toNat_eq
  · rw [highByte_toNat, tokenValue_toNat]; omega
  · rw [lowByte_toNat, tokenValue_toNat]; omega

theorem spairByte_toNat (q : BitVec 6) : (spairByte q).toNat = 0xC0 + q.toNat := by
  revert q; decide

theorem fieldQ_spair (q : BitVec 6) : fieldQ (spairByte q) = q := by
  revert q; decide

theorem spair_fieldQ (c : Byte) (h : 0xC0 ≤ c.toNat) : spairByte (fieldQ c) = c := by
  revert c; decide

/-- The length's latch holds the length (R17, R88): 3 to 10 fit its 4 bits. -/
theorem lengthOf_lt (lm3 : BitVec 3) : 3 ≤ lengthOf lm3 ∧ lengthOf lm3 ≤ 10 := by
  have := lm3.isLt
  unfold lengthOf
  omega

end Sys2Proof
end

