-- ==== Sys2Proof/Laws/Memory.lean ====
section
/-! SUPPORT. The laws of memory: reading back a write, the canonical form, and buffers as byte
sequences. -/

namespace Sys2Proof.Machine

open Sys2Proof

@[simp] theorem Memory.read_nil (a : Nat) : Memory.read [] a = none := rfl

@[simp] theorem Memory.read_write_same (m : Memory) (a : Nat) (b : Byte) :
    Memory.read (Memory.write m a b) a = some b := by
  induction m with
  | nil => simp [Memory.write, Memory.read]
  | cons x m ih =>
    obtain ⟨k, y⟩ := x
    simp only [Memory.write]
    split
    · simp [Memory.read]
    · split
      · simp [Memory.read]
      · simp only [Memory.read]
        rw [if_neg (by omega), ih]

theorem Memory.read_write_other (m : Memory) {a x : Nat} (b : Byte) (h : x ≠ a) :
    Memory.read (Memory.write m a b) x = Memory.read m x := by
  induction m with
  | nil => simp [Memory.write, Memory.read, Ne.symm h]
  | cons y m ih =>
    obtain ⟨k, y⟩ := y
    simp only [Memory.write]
    split
    · simp [Memory.read, Ne.symm h]
    · split
      · subst a; simp [Memory.read, Ne.symm h]
      · simp only [Memory.read, ih]

/-- An address that a write keeps is the written one or was there. -/
theorem Memory.mem_write {m : Memory} {a : Nat} {b : Byte} {c : Host.Cell}
    (h : c ∈ Memory.write m a b) : c = (a, b) ∨ c ∈ m := by
  induction m with
  | nil => simpa [Memory.write] using h
  | cons x m ih =>
    obtain ⟨k, y⟩ := x
    simp only [Memory.write] at h
    split at h
    · simpa using h
    · split at h
      · rcases List.mem_cons.1 h with h | h
        · exact .inl h
        · exact .inr (List.mem_cons_of_mem _ h)
      · rcases List.mem_cons.1 h with h | h
        · exact .inr (h ▸ List.mem_cons_self)
        · exact (ih h).imp id (List.mem_cons_of_mem _)

/-- A write keeps the canonical form. -/
theorem Memory.wf_write {m : Memory} (h : Memory.wf m) (a : Nat) (b : Byte) :
    Memory.wf (Memory.write m a b) := by
  induction m with
  | nil => simp [Memory.write, Memory.wf]
  | cons x m ih =>
    obtain ⟨k, y⟩ := x
    obtain ⟨hx, hm⟩ := List.pairwise_cons.1 h
    simp only [Memory.write]
    split
    · refine List.pairwise_cons.2 ⟨fun c hc => ?_, h⟩
      rcases List.mem_cons.1 hc with rfl | hc
      · assumption
      · have := hx c hc; simp only at this ⊢; omega
    · split
      · subst a; exact List.pairwise_cons.2 ⟨hx, hm⟩
      · refine List.pairwise_cons.2 ⟨fun c hc => ?_, ih hm⟩
        rcases Memory.mem_write hc with rfl | hc
        · simp only; omega
        · exact hx c hc

theorem Memory.read_ofBytesFrom (a : Nat) (bs : List Byte) (x : Nat) :
    Memory.read (Memory.ofBytesFrom a bs) x = if x < a then none else bs[x - a]? := by
  induction bs generalizing a with
  | nil => simp [Memory.ofBytesFrom]
  | cons b bs ih =>
    simp only [Memory.ofBytesFrom, Memory.read, ih]
    rcases Nat.lt_trichotomy x a with h | h | h
    · rw [if_neg (by omega), if_pos (by omega), if_pos h]
    · subst h; simp
    · rw [if_neg (by omega), if_neg (by omega), if_neg (by omega),
        show x - a = (x - (a + 1)) + 1 by omega]
      rfl

@[simp] theorem Memory.read_ofBytes (bs : List Byte) (a : Nat) :
    Memory.read (Memory.ofBytes bs) a = bs[a]? := by
  simp [Memory.ofBytes, Memory.read_ofBytesFrom]

theorem Memory.fst_ofBytesFrom (a : Nat) (bs : List Byte) :
    (Memory.ofBytesFrom a bs).map Prod.fst = List.range' a bs.length := by
  induction bs generalizing a with
  | nil => rfl
  | cons b bs ih => simp [Memory.ofBytesFrom, ih, List.range'_succ]

/-- A loaded buffer holds exactly its addresses. -/
theorem Memory.buffer_ofBytes (bs : List Byte) : Buffer (Memory.ofBytes bs) bs.length := by
  simp [Buffer, Memory.ofBytes, Memory.fst_ofBytesFrom, List.range_eq_range']

@[simp] theorem Memory.bytes_ofBytes (bs : List Byte) : Memory.bytes (Memory.ofBytes bs) = bs := by
  suffices ∀ a, Memory.bytes (Memory.ofBytesFrom a bs) = bs from this 0
  induction bs with
  | nil => intro; rfl
  | cons b bs ih => intro a; simpa [Memory.ofBytesFrom, Memory.bytes] using ih (a + 1)

theorem Memory.ofBytesFrom_bytes {m : Memory} {a n : Nat}
    (h : m.map Prod.fst = List.range' a n) : Memory.ofBytesFrom a (Memory.bytes m) = m := by
  induction m generalizing a n with
  | nil => rfl
  | cons x m ih =>
    cases n with
    | zero => simp at h
    | succ n =>
      rw [List.map_cons, List.range'_succ] at h
      obtain ⟨hx, hm⟩ := List.cons.inj h
      have := ih hm
      simp only [Memory.bytes, List.map_cons, Memory.ofBytesFrom] at this ⊢
      rw [this, ← hx]

/-- A buffer is the memory of its bytes. -/
theorem Buffer.ofBytes_bytes {m : Memory} {n : Nat} (h : Buffer m n) :
    Memory.ofBytes (Memory.bytes m) = m :=
  Memory.ofBytesFrom_bytes (by rw [← List.range_eq_range']; exact h)

theorem Buffer.length_bytes {m : Memory} {n : Nat} (h : Buffer m n) :
    (Memory.bytes m).length = n := by
  have := congrArg List.length h
  simpa [Memory.bytes] using this

/-- A read of a buffer is the byte of its sequence. -/
theorem Buffer.read_eq {m : Memory} {n : Nat} (h : Buffer m n) (a : Nat) :
    Memory.read m a = (Memory.bytes m)[a]? := by
  conv_lhs => rw [← h.ofBytes_bytes]
  exact Memory.read_ofBytes _ a

theorem Memory.ofBytesFrom_append (a : Nat) (bs cs : List Byte) :
    Memory.ofBytesFrom a (bs ++ cs) =
      Memory.ofBytesFrom a bs ++ Memory.ofBytesFrom (a + bs.length) cs := by
  induction bs generalizing a with
  | nil => rfl
  | cons b bs ih => simp [Memory.ofBytesFrom, ih, Nat.add_assoc, Nat.add_comm 1]

theorem Memory.write_above {m : Memory} {a : Nat} (b : Byte) (h : ∀ c ∈ m, c.1 < a) :
    Memory.write m a b = m ++ [(a, b)] := by
  induction m with
  | nil => rfl
  | cons x m ih =>
    obtain ⟨k, y⟩ := x
    have hk : k < a := h (k, y) List.mem_cons_self
    simp only [Memory.write]
    rw [if_neg (by omega), if_neg (by omega), ih fun c hc => h c (List.mem_cons_of_mem _ hc)]
    rfl

theorem Buffer.write_eq {m : Memory} {n : Nat} (h : Buffer m n) (b : Byte) :
    Memory.write m n b = m ++ [(n, b)] :=
  Memory.write_above b fun c hc => by
    have : c.1 ∈ m.map Prod.fst := List.mem_map_of_mem hc
    rw [h] at this
    exact List.mem_range.1 this

/-- Appending at the end of a buffer makes a buffer one longer. -/
theorem Buffer.write {m : Memory} {n : Nat} (h : Buffer m n) (b : Byte) :
    Buffer (Memory.write m n b) (n + 1) := by
  rw [h.write_eq]
  simp [Buffer, List.range_succ, show m.map Prod.fst = _ from h]

theorem Buffer.bytes_write {m : Memory} {n : Nat} (h : Buffer m n) (b : Byte) :
    Memory.bytes (Memory.write m n b) = Memory.bytes m ++ [b] := by
  rw [h.write_eq]; simp [Memory.bytes]

/-- A buffer is in canonical form. -/
theorem Buffer.wf {m : Memory} {n : Nat} (h : Buffer m n) : Memory.wf m := by
  have : (m.map Prod.fst).Pairwise (· < ·) := h ▸ List.pairwise_lt_range
  exact List.pairwise_map.1 this

theorem Memory.wf_ofBytes (bs : List Byte) : Memory.wf (Memory.ofBytes bs) :=
  (Memory.buffer_ofBytes bs).wf

/-- Placing a token keeps the canonical form. -/
theorem wf_writeAll {m : Memory} (h : Memory.wf m) (a : Nat) (bs : List Byte) :
    Memory.wf (writeAll m a bs) := by
  induction bs generalizing m a with
  | nil => exact h
  | cons b bs ih => exact ih (Memory.wf_write h a b) (a + 1)

theorem Buffer.nil : Buffer [] 0 := rfl

theorem Buffer.read_isSome {m : Memory} {n a : Nat} (h : Buffer m n) (ha : a < n) :
    ∃ b, Memory.read m a = some b := by
  rw [h.read_eq]
  exact ⟨_, List.getElem?_eq_getElem (by rw [h.length_bytes]; exact ha)⟩

theorem Buffer.read_none {m : Memory} {n a : Nat} (h : Buffer m n) (ha : n ≤ a) :
    Memory.read m a = none := by
  rw [h.read_eq]
  exact List.getElem?_eq_none (by rw [h.length_bytes]; exact ha)

/-- The memory of reset is in canonical form, in every space. -/
theorem reset_memories_wf :
    Memory.wf State.reset.dec.input ∧ Memory.wf State.reset.dec.out ∧
      Memory.wf State.reset.enc.raw ∧ Memory.wf State.reset.enc.code :=
  ⟨.nil, .nil, .nil, .nil⟩

theorem Memory.slice_eq {m : Memory} {n : Nat} (h : Buffer m n) (k a : Nat) (hk : a + k ≤ n) :
    Memory.slice m a k = some (((Memory.bytes m).drop a).take k) := by
  induction k generalizing a with
  | zero => simp [Memory.slice]
  | succ k ih =>
    obtain ⟨b, hb⟩ := h.read_isSome (a := a) (by omega)
    have hb' := hb
    rw [h.read_eq] at hb'
    obtain ⟨hl, hbe⟩ := List.getElem?_eq_some_iff.1 hb'
    rw [Memory.slice, hb, ih (a + 1) (by omega)]
    simp only [Option.bind_some, Option.map_some]
    rw [List.drop_eq_getElem_cons hl, List.take_succ_cons, hbe]

end Sys2Proof.Machine
end

