-- ==== Sys2Proof/Laws/State.lean ====
section
/-! SUPPORT. One lemma per field per update of the state's records, true by rfl, so that no later proof
unfolds a record update. -/

namespace Sys2Proof.Machine

open Sys2Proof

/-! `Decoder.beginToken` -/
@[simp] theorem Decoder.beginToken_input (c : Byte) (d : Decoder) :
    (d.beginToken c).input = d.input := rfl
@[simp] theorem Decoder.beginToken_inLen (c : Byte) (d : Decoder) :
    (d.beginToken c).inLen = d.inLen := rfl
@[simp] theorem Decoder.beginToken_i (c : Byte) (d : Decoder) :
    (d.beginToken c).i = d.i + 1 := rfl
@[simp] theorem Decoder.beginToken_out (c : Byte) (d : Decoder) :
    (d.beginToken c).out = d.out := rfl
@[simp] theorem Decoder.beginToken_o (c : Byte) (d : Decoder) :
    (d.beginToken c).o = d.o := rfl
@[simp] theorem Decoder.beginToken_port (c : Byte) (d : Decoder) :
    (d.beginToken c).port = d.port := rfl
@[simp] theorem Decoder.beginToken_latch (c : Byte) (d : Decoder) :
    (d.beginToken c).latch = { d.latch with c := c } := rfl
@[simp] theorem Decoder.beginToken_draws (c : Byte) (d : Decoder) :
    (d.beginToken c).draws = d.draws := rfl

/-! `Decoder.latchBref` -/
@[simp] theorem Decoder.latchBref_input (v : Half) (d : Decoder) :
    (d.latchBref v).input = d.input := rfl
@[simp] theorem Decoder.latchBref_inLen (v : Half) (d : Decoder) :
    (d.latchBref v).inLen = d.inLen := rfl
@[simp] theorem Decoder.latchBref_i (v : Half) (d : Decoder) :
    (d.latchBref v).i = d.i + 1 := rfl
@[simp] theorem Decoder.latchBref_out (v : Half) (d : Decoder) :
    (d.latchBref v).out = d.out := rfl
@[simp] theorem Decoder.latchBref_o (v : Half) (d : Decoder) :
    (d.latchBref v).o = d.o := rfl
@[simp] theorem Decoder.latchBref_port (v : Half) (d : Decoder) :
    (d.latchBref v).port = d.port := rfl
@[simp] theorem Decoder.latchBref_latch (v : Half) (d : Decoder) :
    (d.latchBref v).latch = { d.latch with v := v, dist := fieldDistance v, clen := latchLength v } := rfl
@[simp] theorem Decoder.latchBref_draws (v : Half) (d : Decoder) :
    (d.latchBref v).draws = d.draws := rfl

/-! `Decoder.release` -/
@[simp] theorem Decoder.release_input (d : Decoder) :
    (d.release).input = d.input := rfl
@[simp] theorem Decoder.release_inLen (d : Decoder) :
    (d.release).inLen = d.inLen := rfl
@[simp] theorem Decoder.release_i (d : Decoder) :
    (d.release).i = d.i := rfl
@[simp] theorem Decoder.release_out (d : Decoder) :
    (d.release).out = d.out := rfl
@[simp] theorem Decoder.release_o (d : Decoder) :
    (d.release).o = d.o := rfl
@[simp] theorem Decoder.release_port (d : Decoder) :
    (d.release).port = d.port := rfl
@[simp] theorem Decoder.release_latch (d : Decoder) :
    (d.release).latch = Config.freeDecLatches d.draws := rfl
@[simp] theorem Decoder.release_draws (d : Decoder) :
    (d.release).draws = d.draws + 1 := rfl

/-! `Decoder.raiseCorrupt` -/
@[simp] theorem Decoder.raiseCorrupt_input (cause : Cause) (iTok : Nat) (d : Decoder) :
    (d.raiseCorrupt cause iTok).input = d.input := rfl
@[simp] theorem Decoder.raiseCorrupt_inLen (cause : Cause) (iTok : Nat) (d : Decoder) :
    (d.raiseCorrupt cause iTok).inLen = d.inLen := rfl
@[simp] theorem Decoder.raiseCorrupt_i (cause : Cause) (iTok : Nat) (d : Decoder) :
    (d.raiseCorrupt cause iTok).i = d.i := rfl
@[simp] theorem Decoder.raiseCorrupt_out (cause : Cause) (iTok : Nat) (d : Decoder) :
    (d.raiseCorrupt cause iTok).out = d.out := rfl
@[simp] theorem Decoder.raiseCorrupt_o (cause : Cause) (iTok : Nat) (d : Decoder) :
    (d.raiseCorrupt cause iTok).o = d.o := rfl
@[simp] theorem Decoder.raiseCorrupt_port (cause : Cause) (iTok : Nat) (d : Decoder) :
    (d.raiseCorrupt cause iTok).port = ⟨.err, .corruptStream, ⟨cause, iTok, d.latch.c, d.o⟩⟩ := rfl
@[simp] theorem Decoder.raiseCorrupt_latch (cause : Cause) (iTok : Nat) (d : Decoder) :
    (d.raiseCorrupt cause iTok).latch = d.latch := rfl
@[simp] theorem Decoder.raiseCorrupt_draws (cause : Cause) (iTok : Nat) (d : Decoder) :
    (d.raiseCorrupt cause iTok).draws = d.draws := rfl

/-! `Decoder.raiseMemory` -/
@[simp] theorem Decoder.raiseMemory_input (iTok : Nat) (d : Decoder) :
    (d.raiseMemory iTok).input = d.input := rfl
@[simp] theorem Decoder.raiseMemory_inLen (iTok : Nat) (d : Decoder) :
    (d.raiseMemory iTok).inLen = d.inLen := rfl
@[simp] theorem Decoder.raiseMemory_i (iTok : Nat) (d : Decoder) :
    (d.raiseMemory iTok).i = d.i := rfl
@[simp] theorem Decoder.raiseMemory_out (iTok : Nat) (d : Decoder) :
    (d.raiseMemory iTok).out = d.out := rfl
@[simp] theorem Decoder.raiseMemory_o (iTok : Nat) (d : Decoder) :
    (d.raiseMemory iTok).o = d.o := rfl
@[simp] theorem Decoder.raiseMemory_port (iTok : Nat) (d : Decoder) :
    (d.raiseMemory iTok).port = ⟨.err, .outOfMemory, ⟨.none, iTok, d.latch.c, d.o⟩⟩ := rfl
@[simp] theorem Decoder.raiseMemory_latch (iTok : Nat) (d : Decoder) :
    (d.raiseMemory iTok).latch = d.latch := rfl
@[simp] theorem Decoder.raiseMemory_draws (iTok : Nat) (d : Decoder) :
    (d.raiseMemory iTok).draws = d.draws := rfl

/-! `Decoder.raiseTruncated` -/
@[simp] theorem Decoder.raiseTruncated_input (cause : Cause) (c : Byte) (d : Decoder) :
    (d.raiseTruncated cause c).input = d.input := rfl
@[simp] theorem Decoder.raiseTruncated_inLen (cause : Cause) (c : Byte) (d : Decoder) :
    (d.raiseTruncated cause c).inLen = d.inLen := rfl
@[simp] theorem Decoder.raiseTruncated_i (cause : Cause) (c : Byte) (d : Decoder) :
    (d.raiseTruncated cause c).i = d.i + 1 := rfl
@[simp] theorem Decoder.raiseTruncated_out (cause : Cause) (c : Byte) (d : Decoder) :
    (d.raiseTruncated cause c).out = d.out := rfl
@[simp] theorem Decoder.raiseTruncated_o (cause : Cause) (c : Byte) (d : Decoder) :
    (d.raiseTruncated cause c).o = d.o := rfl
@[simp] theorem Decoder.raiseTruncated_port (cause : Cause) (c : Byte) (d : Decoder) :
    (d.raiseTruncated cause c).port = ⟨.err, .corruptStream, ⟨cause, d.i, c, d.o⟩⟩ := rfl
@[simp] theorem Decoder.raiseTruncated_latch (cause : Cause) (c : Byte) (d : Decoder) :
    (d.raiseTruncated cause c).latch = { d.latch with c := c } := rfl
@[simp] theorem Decoder.raiseTruncated_draws (cause : Cause) (c : Byte) (d : Decoder) :
    (d.raiseTruncated cause c).draws = d.draws := rfl

/-! `Decoder.setRem` -/
@[simp] theorem Decoder.setRem_input (n : BitVec 4) (d : Decoder) :
    (d.setRem n).input = d.input := rfl
@[simp] theorem Decoder.setRem_inLen (n : BitVec 4) (d : Decoder) :
    (d.setRem n).inLen = d.inLen := rfl
@[simp] theorem Decoder.setRem_i (n : BitVec 4) (d : Decoder) :
    (d.setRem n).i = d.i := rfl
@[simp] theorem Decoder.setRem_out (n : BitVec 4) (d : Decoder) :
    (d.setRem n).out = d.out := rfl
@[simp] theorem Decoder.setRem_o (n : BitVec 4) (d : Decoder) :
    (d.setRem n).o = d.o := rfl
@[simp] theorem Decoder.setRem_port (n : BitVec 4) (d : Decoder) :
    (d.setRem n).port = d.port := rfl
@[simp] theorem Decoder.setRem_latch (n : BitVec 4) (d : Decoder) :
    (d.setRem n).latch = { d.latch with rem := n } := rfl
@[simp] theorem Decoder.setRem_draws (n : BitVec 4) (d : Decoder) :
    (d.setRem n).draws = d.draws := rfl

/-! `Decoder.finish` -/
@[simp] theorem Decoder.finish_input (d : Decoder) :
    (d.finish).input = d.input := rfl
@[simp] theorem Decoder.finish_inLen (d : Decoder) :
    (d.finish).inLen = d.inLen := rfl
@[simp] theorem Decoder.finish_i (d : Decoder) :
    (d.finish).i = d.i := rfl
@[simp] theorem Decoder.finish_out (d : Decoder) :
    (d.finish).out = d.out := rfl
@[simp] theorem Decoder.finish_o (d : Decoder) :
    (d.finish).o = d.o := rfl
@[simp] theorem Decoder.finish_port (d : Decoder) :
    (d.finish).port = { d.port with status := .done } := rfl
@[simp] theorem Decoder.finish_latch (d : Decoder) :
    (d.finish).latch = d.latch := rfl
@[simp] theorem Decoder.finish_draws (d : Decoder) :
    (d.finish).draws = d.draws := rfl

/-! `Decoder.resetCmd` -/
@[simp] theorem Decoder.resetCmd_input (d : Decoder) :
    (d.resetCmd).input = [] := rfl
@[simp] theorem Decoder.resetCmd_inLen (d : Decoder) :
    (d.resetCmd).inLen = 0 := rfl
@[simp] theorem Decoder.resetCmd_i (d : Decoder) :
    (d.resetCmd).i = 0 := rfl
@[simp] theorem Decoder.resetCmd_out (d : Decoder) :
    (d.resetCmd).out = [] := rfl
@[simp] theorem Decoder.resetCmd_o (d : Decoder) :
    (d.resetCmd).o = 0 := rfl
@[simp] theorem Decoder.resetCmd_port (d : Decoder) :
    (d.resetCmd).port = ⟨.idle, .none, Config.freeDecErrInfo d.draws⟩ := rfl
@[simp] theorem Decoder.resetCmd_latch (d : Decoder) :
    (d.resetCmd).latch = Config.freeDecLatches d.draws := rfl
@[simp] theorem Decoder.resetCmd_draws (d : Decoder) :
    (d.resetCmd).draws = d.draws + 1 := rfl

/-! `Encoder.release` -/
@[simp] theorem Encoder.release_raw (en : Encoder) :
    (en.release).raw = en.raw := rfl
@[simp] theorem Encoder.release_rawLen (en : Encoder) :
    (en.release).rawLen = en.rawLen := rfl
@[simp] theorem Encoder.release_i (en : Encoder) :
    (en.release).i = en.i := rfl
@[simp] theorem Encoder.release_code (en : Encoder) :
    (en.release).code = en.code := rfl
@[simp] theorem Encoder.release_e (en : Encoder) :
    (en.release).e = en.e := rfl
@[simp] theorem Encoder.release_port (en : Encoder) :
    (en.release).port = en.port := rfl
@[simp] theorem Encoder.release_latch (en : Encoder) :
    (en.release).latch = Config.freeEncLatches en.draws := rfl
@[simp] theorem Encoder.release_draws (en : Encoder) :
    (en.release).draws = en.draws + 1 := rfl

/-! `Encoder.raiseMemory` -/
@[simp] theorem Encoder.raiseMemory_raw (first : Byte) (en : Encoder) :
    (en.raiseMemory first).raw = en.raw := rfl
@[simp] theorem Encoder.raiseMemory_rawLen (first : Byte) (en : Encoder) :
    (en.raiseMemory first).rawLen = en.rawLen := rfl
@[simp] theorem Encoder.raiseMemory_i (first : Byte) (en : Encoder) :
    (en.raiseMemory first).i = en.i := rfl
@[simp] theorem Encoder.raiseMemory_code (first : Byte) (en : Encoder) :
    (en.raiseMemory first).code = en.code := rfl
@[simp] theorem Encoder.raiseMemory_e (first : Byte) (en : Encoder) :
    (en.raiseMemory first).e = en.e := rfl
@[simp] theorem Encoder.raiseMemory_port (first : Byte) (en : Encoder) :
    (en.raiseMemory first).port = ⟨.err, .outOfMemory, ⟨.none, en.i, first, en.e⟩⟩ := rfl
@[simp] theorem Encoder.raiseMemory_latch (first : Byte) (en : Encoder) :
    (en.raiseMemory first).latch = en.latch := rfl
@[simp] theorem Encoder.raiseMemory_draws (first : Byte) (en : Encoder) :
    (en.raiseMemory first).draws = en.draws := rfl

/-! `Encoder.setN` -/
@[simp] theorem Encoder.setN_raw (b : Byte) (en : Encoder) :
    (en.setN b).raw = en.raw := rfl
@[simp] theorem Encoder.setN_rawLen (b : Byte) (en : Encoder) :
    (en.setN b).rawLen = en.rawLen := rfl
@[simp] theorem Encoder.setN_i (b : Byte) (en : Encoder) :
    (en.setN b).i = en.i := rfl
@[simp] theorem Encoder.setN_code (b : Byte) (en : Encoder) :
    (en.setN b).code = en.code := rfl
@[simp] theorem Encoder.setN_e (b : Byte) (en : Encoder) :
    (en.setN b).e = en.e := rfl
@[simp] theorem Encoder.setN_port (b : Byte) (en : Encoder) :
    (en.setN b).port = en.port := rfl
@[simp] theorem Encoder.setN_latch (b : Byte) (en : Encoder) :
    (en.setN b).latch = { en.latch with n := b } := rfl
@[simp] theorem Encoder.setN_draws (b : Byte) (en : Encoder) :
    (en.setN b).draws = en.draws := rfl

/-! `Encoder.setCnt` -/
@[simp] theorem Encoder.setCnt_raw (n : BitVec 4) (en : Encoder) :
    (en.setCnt n).raw = en.raw := rfl
@[simp] theorem Encoder.setCnt_rawLen (n : BitVec 4) (en : Encoder) :
    (en.setCnt n).rawLen = en.rawLen := rfl
@[simp] theorem Encoder.setCnt_i (n : BitVec 4) (en : Encoder) :
    (en.setCnt n).i = en.i := rfl
@[simp] theorem Encoder.setCnt_code (n : BitVec 4) (en : Encoder) :
    (en.setCnt n).code = en.code := rfl
@[simp] theorem Encoder.setCnt_e (n : BitVec 4) (en : Encoder) :
    (en.setCnt n).e = en.e := rfl
@[simp] theorem Encoder.setCnt_port (n : BitVec 4) (en : Encoder) :
    (en.setCnt n).port = en.port := rfl
@[simp] theorem Encoder.setCnt_latch (n : BitVec 4) (en : Encoder) :
    (en.setCnt n).latch = { en.latch with cnt := n } := rfl
@[simp] theorem Encoder.setCnt_draws (n : BitVec 4) (en : Encoder) :
    (en.setCnt n).draws = en.draws := rfl

/-! `Encoder.finish` -/
@[simp] theorem Encoder.finish_raw (en : Encoder) :
    (en.finish).raw = en.raw := rfl
@[simp] theorem Encoder.finish_rawLen (en : Encoder) :
    (en.finish).rawLen = en.rawLen := rfl
@[simp] theorem Encoder.finish_i (en : Encoder) :
    (en.finish).i = en.i := rfl
@[simp] theorem Encoder.finish_code (en : Encoder) :
    (en.finish).code = en.code := rfl
@[simp] theorem Encoder.finish_e (en : Encoder) :
    (en.finish).e = en.e := rfl
@[simp] theorem Encoder.finish_port (en : Encoder) :
    (en.finish).port = { en.port with status := .done } := rfl
@[simp] theorem Encoder.finish_latch (en : Encoder) :
    (en.finish).latch = en.latch := rfl
@[simp] theorem Encoder.finish_draws (en : Encoder) :
    (en.finish).draws = en.draws := rfl

/-! `Encoder.resetCmd` -/
@[simp] theorem Encoder.resetCmd_raw (en : Encoder) :
    (en.resetCmd).raw = [] := rfl
@[simp] theorem Encoder.resetCmd_rawLen (en : Encoder) :
    (en.resetCmd).rawLen = 0 := rfl
@[simp] theorem Encoder.resetCmd_i (en : Encoder) :
    (en.resetCmd).i = 0 := rfl
@[simp] theorem Encoder.resetCmd_code (en : Encoder) :
    (en.resetCmd).code = [] := rfl
@[simp] theorem Encoder.resetCmd_e (en : Encoder) :
    (en.resetCmd).e = 0 := rfl
@[simp] theorem Encoder.resetCmd_port (en : Encoder) :
    (en.resetCmd).port = ⟨.idle, .none, Config.freeEncErrInfo en.draws⟩ := rfl
@[simp] theorem Encoder.resetCmd_latch (en : Encoder) :
    (en.resetCmd).latch = Config.freeEncLatches en.draws := rfl
@[simp] theorem Encoder.resetCmd_draws (en : Encoder) :
    (en.resetCmd).draws = en.draws + 1 := rfl

/-! `State.answerDecoder` and `State.answerEncoder` -/
@[simp] theorem State.answerDecoder_ok (s : State) (d : Decoder) :
    s.answerDecoder (.ok d) = .next { s with dec := d.release } := rfl
@[simp] theorem State.answerDecoder_error (s : State) (f : Fault) :
    s.answerDecoder (.error f) = .fault f := rfl
@[simp] theorem State.answerEncoder_ok (s : State) (en : Encoder) :
    s.answerEncoder (.ok en) = .next { s with enc := en } := rfl
@[simp] theorem State.answerEncoder_error (s : State) (f : Fault) :
    s.answerEncoder (.error f) = .fault f := rfl

/-! The search touches the working registers only. -/
@[simp] theorem Encoder.search_raw (policy : MatchPolicy) (en : Encoder) :
    (en.search policy).raw = en.raw := by
  unfold Encoder.search; split <;> rfl
@[simp] theorem Encoder.search_rawLen (policy : MatchPolicy) (en : Encoder) :
    (en.search policy).rawLen = en.rawLen := by
  unfold Encoder.search; split <;> rfl
@[simp] theorem Encoder.search_i (policy : MatchPolicy) (en : Encoder) :
    (en.search policy).i = en.i := by
  unfold Encoder.search; split <;> rfl
@[simp] theorem Encoder.search_code (policy : MatchPolicy) (en : Encoder) :
    (en.search policy).code = en.code := by
  unfold Encoder.search; split <;> rfl
@[simp] theorem Encoder.search_e (policy : MatchPolicy) (en : Encoder) :
    (en.search policy).e = en.e := by
  unfold Encoder.search; split <;> rfl
@[simp] theorem Encoder.search_port (policy : MatchPolicy) (en : Encoder) :
    (en.search policy).port = en.port := by
  unfold Encoder.search; split <;> rfl
@[simp] theorem Encoder.search_draws (policy : MatchPolicy) (en : Encoder) :
    (en.search policy).draws = en.draws := by
  unfold Encoder.search; split <;> rfl

end Sys2Proof.Machine
end

