-- ==== Sys2Proof/Laws/Ops.lean ====
section
/-! SUPPORT. One lemma per shared operation that says everything it can do: capacities, the access
primitives, the append loops of both blocks, and the token fetch. -/

namespace Sys2Proof.Machine

open Sys2Proof

/-! ### Capacities -/

@[simp] theorem fits_none (n : Nat) : fits none n = true := rfl

@[simp] theorem fits_some (k n : Nat) : fits (some k) n = decide (n ≤ k) := rfl

/-- What fits leaves room for less. -/
theorem fits_mono {cap : Option Nat} {m n : Nat} (h : fits cap n = true) (hm : m ≤ n) :
    fits cap m = true := by
  cases cap with
  | none => rfl
  | some k => simp only [fits_some, decide_eq_true_eq] at h ⊢; omega

/-- A number that fits a capacity below the width is below the width. -/
theorem fitsWidth_of_fits {addrW cap : Option Nat} {n : Nat} (h : fits cap n = true)
    (hw : fitsWidth addrW cap = true) : fitsWidth addrW (some n) = true := by
  cases addrW with
  | none => rfl
  | some w =>
    cases cap with
    | none => simp [fitsWidth] at hw
    | some k =>
      simp only [fitsWidth, fits_some, decide_eq_true_eq] at *
      omega

@[simp] theorem fits_zero (cap : Option Nat) : fits cap 0 = true := by
  cases cap <;> simp

@[simp] theorem fitsWidth_zero (addrW : Option Nat) : fitsWidth addrW (some 0) = true := by
  cases addrW <;> simp [fitsWidth]

/-! ### Appending a list of bytes -/

@[simp] theorem writeAll_nil (m : Memory) (a : Nat) : writeAll m a [] = m := rfl

@[simp] theorem writeAll_cons (m : Memory) (a : Nat) (b : Byte) (bs : List Byte) :
    writeAll m a (b :: bs) = writeAll (Memory.write m a b) (a + 1) bs := rfl

/-- Outside the written addresses every byte reads as before. -/
theorem writeAll_other (m : Memory) (a : Nat) (bs : List Byte) :
    SameOutside m (writeAll m a bs) a bs.length := by
  induction bs generalizing m a with
  | nil => intro x _; rfl
  | cons b bs ih =>
    intro x hx
    simp only [List.length_cons] at hx
    rw [writeAll_cons, ih _ _ x (by omega), Memory.read_write_other _ _ (by omega)]

/-- The written addresses read as the bytes written. -/
theorem writeAll_holds (m : Memory) (a : Nat) (bs : List Byte) :
    HoldsAt (writeAll m a bs) a bs := by
  induction bs generalizing m a with
  | nil => intro k hk; simp at hk
  | cons b bs ih =>
    intro k hk
    cases k with
    | zero =>
      rw [writeAll_cons, writeAll_other _ _ _ (a + 0) (by omega)]
      simp
    | succ k =>
      have := ih (Memory.write m a b) (a + 1) k (by simpa using hk)
      rw [writeAll_cons, show a + (k + 1) = a + 1 + k by omega, this]
      rfl

/-- Appending to a buffer makes a longer buffer. -/
theorem Buffer.writeAll {m : Memory} {n : Nat} (h : Buffer m n) (bs : List Byte) :
    Buffer (writeAll m n bs) (n + bs.length) := by
  induction bs generalizing m n with
  | nil => exact h
  | cons b bs ih =>
    have := ih (h.write b)
    rwa [writeAll_cons, List.length_cons, show n + (bs.length + 1) = n + 1 + bs.length by omega]

/-- Appending to a buffer appends to its bytes. -/
theorem Buffer.bytes_writeAll {m : Memory} {n : Nat} (h : Buffer m n) (bs : List Byte) :
    Memory.bytes (Machine.writeAll m n bs) = Memory.bytes m ++ bs := by
  induction bs generalizing m n with
  | nil => simp
  | cons b bs ih => rw [writeAll_cons, ih (h.write b), h.bytes_write]; simp

/-- With room, `OutAppend` writes at `o` (R38). -/
theorem Decoder.outAppend_eq {p : Config.Params} (b : Byte) {d : Decoder}
    (h : fits p.outCap (d.o + 1) = true) :
    d.outAppend p b = .ok { d with out := Memory.write d.out d.o b, o := d.o + 1 } := by
  simp [Decoder.outAppend, h]

/-- With room, `CodeAppend` writes at `e` (R39). -/
theorem Encoder.codeAppend_eq {p : Config.Params} (b : Byte) {en : Encoder}
    (h : fits p.codeCap (en.e + 1) = true) :
    en.codeAppend p b = .ok { en with code := Memory.write en.code en.e b, e := en.e + 1 } := by
  simp [Encoder.codeAppend, h]

/-- With room for all of them, the bytes are appended in order. -/
theorem Decoder.outAppendAll_eq {p : Config.Params} (bs : List Byte) {d : Decoder}
    (h : fits p.outCap (d.o + bs.length) = true) :
    d.outAppendAll p bs =
      .ok { d with out := writeAll d.out d.o bs, o := d.o + bs.length } := by
  induction bs generalizing d with
  | nil => rfl
  | cons b bs ih =>
    rw [List.length_cons] at h
    rw [Decoder.outAppendAll, Decoder.outAppend_eq b (fits_mono h (by omega))]
    simp only [Except.bind]
    rw [ih (fits_mono h (by simp only; omega))]
    simp only [writeAll_cons, List.length_cons, Nat.add_assoc, Nat.add_comm 1]

/-- With room for all of them, the bytes are appended in order. -/
theorem Encoder.codeAppendAll_eq {p : Config.Params} (bs : List Byte) {en : Encoder}
    (h : fits p.codeCap (en.e + bs.length) = true) :
    en.codeAppendAll p bs =
      .ok { en with code := writeAll en.code en.e bs, e := en.e + bs.length } := by
  induction bs generalizing en with
  | nil => rfl
  | cons b bs ih =>
    rw [List.length_cons] at h
    rw [Encoder.codeAppendAll, Encoder.codeAppend_eq b (fits_mono h (by omega))]
    simp only [Except.bind]
    rw [ih (fits_mono h (by simp only; omega))]
    simp only [writeAll_cons, List.length_cons, Nat.add_assoc, Nat.add_comm 1]

/-- With room, the micro-steps of a RUN append its payload and move `i` past it (R84). -/
theorem Decoder.runLoop_eq {p : Config.Params} (bs : List Byte) {d : Decoder}
    (h : fits p.outCap (d.o + bs.length) = true) :
    ∃ r, d.runLoop p bs = .ok { d with
      out := writeAll d.out d.o bs, o := d.o + bs.length, i := d.i + bs.length, latch := r } := by
  induction bs generalizing d with
  | nil => exact ⟨d.latch, rfl⟩
  | cons b bs ih =>
    rw [List.length_cons] at h
    rw [Decoder.runLoop, Decoder.runMicro, Decoder.outAppend_eq b (fits_mono h (by omega))]
    simp only [Except.map, Except.bind]
    obtain ⟨r, hr⟩ := ih (d := Decoder.setRem (d.latch.rem - 1) { d with
      out := Memory.write d.out d.o b, o := d.o + 1, i := d.i + 1 })
      (fits_mono h (by simp only [Decoder.setRem_o]; omega))
    exact ⟨r, by
      rw [hr]
      simp [Nat.add_assoc, Nat.add_comm 1]⟩

/-- The bytes of a copy come after the bytes before it. -/
theorem copyBytes_length {dist : Nat} (n : Nat) {out : List Byte} (h1 : 1 ≤ dist)
    (h2 : dist ≤ out.length) : (copyBytes dist n out).length = out.length + n := by
  induction n generalizing out with
  | zero => rfl
  | succ n ih =>
    obtain ⟨b, hb⟩ : ∃ b, out[out.length - dist]? = some b :=
      ⟨_, List.getElem?_eq_getElem (by omega)⟩
    rw [copyBytes, hb, ih (by simp; omega)]
    simp; omega

/-- With room and a distance inside the output, the micro-steps of a copy compute `copyBytes`
(R86, R90). -/
theorem Decoder.copyLoop_eq {p : Config.Params} (n : Nat) {d : Decoder}
    (hb : Buffer d.out d.o) (h1 : 1 ≤ d.latch.dist.toNat) (h2 : d.latch.dist.toNat ≤ d.o)
    (h : fits p.outCap (d.o + n) = true) :
    ∃ r, d.copyLoop p n = .ok { d with
      out := Memory.ofBytes (copyBytes d.latch.dist.toNat n (Memory.bytes d.out))
      o := d.o + n, latch := r } := by
  induction n generalizing d with
  | zero => exact ⟨d.latch, by simp [Decoder.copyLoop, copyBytes, hb.ofBytes_bytes]⟩
  | succ n ih =>
    obtain ⟨b, hr⟩ := hb.read_isSome (a := d.o - d.latch.dist.toNat) (by omega)
    have hread : d.outRead (d.o - d.latch.dist.toNat) = .ok b := by
      simp only [Decoder.outRead, readBelow]
      rw [if_pos (by omega), hr]
    have hbyte : (Memory.bytes d.out)[(Memory.bytes d.out).length - d.latch.dist.toNat]? = some b := by
      rw [hb.length_bytes, ← hb.read_eq, hr]
    rw [Decoder.copyLoop, Decoder.copyMicro, hread]
    simp only [Except.bind]
    rw [Decoder.outAppend_eq b (fits_mono h (by omega))]
    simp only [Except.map]
    obtain ⟨r, hr'⟩ := ih (d := Decoder.setRem (d.latch.rem - 1) { d with
      out := Memory.write d.out d.o b, o := d.o + 1 })
      (hb.write b) h1 (by simp only [Decoder.setRem_o, Decoder.setRem_latch]; omega)
      (fits_mono h (by simp only [Decoder.setRem_o]; omega))
    refine ⟨r, ?_⟩
    rw [hr']
    simp [copyBytes, hbyte, hb.bytes_write, Nat.add_assoc, Nat.add_comm 1]

/-! ### Reads -/

/-- A read below the length of a buffer is the byte there. -/
theorem readBelow_eq {space : Space} {m : Memory} {len a : Nat} {b : Byte} (ha : a < len)
    (hb : Memory.read m a = some b) : readBelow space m len a = .ok b := by
  simp [readBelow, ha, hb]

/-- What a read that answers says. -/
theorem readBelow_ok {space : Space} {m : Memory} {len a : Nat} {b : Byte}
    (h : readBelow space m len a = .ok b) : a < len ∧ Memory.read m a = some b := by
  simp only [readBelow] at h
  split at h
  · split at h
    · exact ⟨by assumption, by cases h; assumption⟩
    · cases h
  · cases h

/-- Reading bytes that the buffer holds. -/
theorem Decoder.inReads_eq {d : Decoder} {bs : List Byte} {a : Nat} (h : HoldsAt d.input a bs)
    (hl : a + bs.length ≤ d.inLen) : d.inReads a bs.length = .ok bs := by
  induction bs generalizing a with
  | nil => rfl
  | cons b bs ih =>
    rw [List.length_cons] at hl
    have h0 := h 0 (by simp)
    simp only [List.length_cons, Decoder.inReads, Decoder.inRead]
    rw [readBelow_eq (by omega) (by simpa using h0), ih (a := a + 1) ?_ (by omega)]
    · rfl
    · intro k hk
      have := h (k + 1) (by simpa using hk)
      rw [show a + 1 + k = a + (k + 1) by omega, this]
      rfl

/-- What reading `n` bytes answers. -/
theorem Decoder.inReads_ok {d : Decoder} {n a : Nat} {bs : List Byte}
    (h : d.inReads a n = .ok bs) : bs.length = n ∧ HoldsAt d.input a bs := by
  induction n generalizing a bs with
  | zero => cases h; exact ⟨rfl, fun k hk => by simp at hk⟩
  | succ n ih =>
    simp only [Decoder.inReads] at h
    cases hb : d.inRead a with
    | error f => rw [hb] at h; cases h
    | ok b =>
      rw [hb] at h
      simp only [Except.bind] at h
      cases hr : d.inReads (a + 1) n with
      | error f => rw [hr] at h; cases h
      | ok cs =>
        rw [hr] at h
        cases h
        obtain ⟨hl, hh⟩ := ih hr
        refine ⟨by simp [hl], fun k hk => ?_⟩
        cases k with
        | zero => simpa using (readBelow_ok hb).2
        | succ k =>
          have := hh k (by simpa using hk)
          rw [show a + (k + 1) = a + 1 + k by omega, this]
          rfl

/-- Reading raw bytes that the buffer holds. -/
theorem Encoder.rawReads_eq {en : Encoder} {bs : List Byte} {a : Nat} (h : HoldsAt en.raw a bs)
    (hl : a + bs.length ≤ en.rawLen) : en.rawReads a bs.length = .ok bs := by
  induction bs generalizing a with
  | nil => rfl
  | cons b bs ih =>
    rw [List.length_cons] at hl
    have h0 := h 0 (by simp)
    simp only [List.length_cons, Encoder.rawReads, Encoder.rawRead]
    rw [readBelow_eq (by omega) (by simpa using h0), ih (a := a + 1) ?_ (by omega)]
    · rfl
    · intro k hk
      have := h (k + 1) (by simpa using hk)
      rw [show a + 1 + k = a + (k + 1) by omega, this]
      rfl

/-- What an emission does: with room the token is appended and the cursor moves on, without room
OutOfMemory is raised with nothing appended (R132). -/
theorem Encoder.emit_eq {p : Config.Params} (token : List Byte) (adv : Nat) {en : Encoder} :
    en.emit p token adv =
      if fits p.codeCap (en.e + token.length) then
        .ok { en with
          code := writeAll en.code en.e token, e := en.e + token.length, i := en.i + adv }
      else (en.rawRead en.i).map fun first => en.raiseMemory first := by
  unfold Encoder.emit
  split
  · rename_i h
    rw [Encoder.codeAppendAll_eq token h]
    rfl
  · rfl

end Sys2Proof.Machine
end

