-- ==== Sys2Proof/Laws/Codec.lean ====
section
/-! SUPPORT. What one iteration of the decoding function can answer (R86). -/

namespace Sys2Proof.Machine

open Sys2Proof

theorem decodeAppend_ok {cap : Option Nat} {i len i' : Nat} {bytes out out' : List Byte}
    (h : decodeAppend cap i len bytes out = .ok (i', out')) :
    i' = i + len ∧ out' = out ++ bytes ∧ fits cap out'.length = true := by
  unfold decodeAppend at h
  split at h <;> cases h
  exact ⟨rfl, rfl, by rw [List.length_append]; assumption⟩

/-- A token that completes consumes stream, stays inside it, and grows the output at most fivefold. -/
theorem decodeToken_ok {cap : Option Nat} {stream out out' : List Byte} {i i' : Nat} {c : Byte}
    (hc : stream[i]? = some c) (h : decodeToken cap stream i c out = .ok (i', out')) :
    i < i' ∧ i' ≤ stream.length ∧ out'.length ≤ out.length + 5 * (i' - i) := by
  obtain ⟨hlt, -⟩ := List.getElem?_eq_some_iff.1 hc
  unfold decodeToken at h
  split at h
  · split at h
    · cases h
    · obtain ⟨rfl, rfl, -⟩ := decodeAppend_ok h
      simp; omega
  · split at h
    · obtain ⟨rfl, rfl, -⟩ := decodeAppend_ok h
      simp; omega
    · split at h
      · obtain ⟨rfl, rfl, -⟩ := decodeAppend_ok h
        simp; omega
      · split at h
        · cases h
        · rename_i b1 hb1
          obtain ⟨hlt1, -⟩ := List.getElem?_eq_some_iff.1 hb1
          unfold decodeBrefToken at h
          simp only at h
          split at h
          · cases h
          · split at h
            · cases h
            · split at h <;> cases h
              rw [copyBytes_length _ (by omega) (by omega)]
              have := lengthOf_lt (fieldLm3 (tokenValue c b1))
              omega

/-- What follows a token that completes does not matter to it. -/
theorem decodeToken_append {cap : Option Nat} {stream out : List Byte} {i : Nat} {c : Byte}
    {r : Nat × List Byte} (ext : List Byte) (hc : stream[i]? = some c)
    (h : decodeToken cap stream i c out = .ok r) :
    decodeToken cap (stream ++ ext) i c out = .ok r := by
  obtain ⟨hlt, -⟩ := List.getElem?_eq_some_iff.1 hc
  unfold decodeToken at h ⊢
  split at h
  · rename_i h1
    rw [if_pos h1]
    split at h
    · cases h
    · rw [if_neg (by simp; omega), List.drop_append_of_le_length (by omega),
        List.take_append_of_le_length (by simp; omega)]
      exact h
  · rename_i h1
    rw [if_neg h1]
    split at h
    · rename_i h2; rw [if_pos h2]; exact h
    · rename_i h2; rw [if_neg h2]
      split at h
      · rename_i h3; rw [if_pos h3]; exact h
      · rename_i h3; rw [if_neg h3]
        split at h
        · cases h
        · rename_i b1 hb1
          rw [List.getElem?_append_left (List.getElem?_eq_some_iff.1 hb1).1, hb1]
          exact h

end Sys2Proof.Machine
end

