-- ==== Sys2Proof/Laws/Emission.lean ====
section
/-! SUPPORT. What the encoder's emissions do, said once each (R105, R111 to R114, R124). -/

namespace Sys2Proof.Machine

open Sys2Proof

theorem plain_true {b : Byte} :
    plain b = true ↔ b.toNat = 0 ∨ (9 ≤ b.toNat ∧ b.toNat ≤ 0x7F) := by
  revert b; decide

theorem plain_false {b : Byte} :
    plain b = false ↔ (1 ≤ b.toNat ∧ b.toNat ≤ 8) ∨ 0x80 ≤ b.toNat := by
  revert b; decide

theorem pairchar_true {b : Byte} : pairchar b = true ↔ 0x40 ≤ b.toNat ∧ b.toNat ≤ 0x7F := by
  revert b; decide

/-- The collecting loop counts the longest run of bytes that are not plain (R114). -/
theorem countRun_eq {en : Encoder} (hb : Buffer en.raw en.rawLen) (fuel cnt : Nat) :
    en.countRun fuel cnt = .ok (cnt + ((((Memory.bytes en.raw).drop (en.i + cnt)).take fuel).takeWhile
      fun b => !plain b).length) := by
  induction fuel generalizing cnt with
  | zero => simp [Encoder.countRun]
  | succ n ih =>
    rw [Encoder.countRun]
    have hl := hb.length_bytes
    split
    · rename_i hi
      obtain ⟨b, hr⟩ := hb.read_isSome hi
      rw [Encoder.rawRead, readBelow_eq hi hr]
      rw [hb.read_eq] at hr
      obtain ⟨hlt, hg⟩ := List.getElem?_eq_some_iff.1 hr
      rw [List.drop_eq_getElem_cons hlt, hg, List.take_succ_cons]
      simp only [Except.bind]
      cases hp : plain b with
      | true => simp [hp]
      | false =>
        rw [if_neg (by simp), ih, List.takeWhile_cons_of_pos (by simp [hp]),
          show en.i + (cnt + 1) = en.i + cnt + 1 by omega, List.length_cons]
        congr 1; omega
    · rw [List.drop_eq_nil_of_le (by omega)]; simp

/-- A binary run that starts at a byte that is not plain starts with it. -/
theorem runBytes_cons {raw : List Byte} {i : Nat} {c : Byte} (h : raw[i]? = some c)
    (hp : plain c = false) :
    runBytes raw i = c :: (((raw.drop (i + 1)).take 7).takeWhile fun b => !plain b) := by
  obtain ⟨hlt, hg⟩ := List.getElem?_eq_some_iff.1 h
  rw [runBytes, List.drop_eq_getElem_cons hlt, hg, show Config.runMax = 7 + 1 from rfl,
    List.take_succ_cons, List.takeWhile_cons_of_pos (by simp [hp])]

/-- A binary run has at most 8 bytes, none plain, and is the raw bytes from `i` on (R114). -/
theorem runBytes_spec (raw : List Byte) (i : Nat) :
    (runBytes raw i).length ≤ 8 ∧ (∀ b ∈ runBytes raw i, plain b = false) ∧
      (i ≤ raw.length → i + (runBytes raw i).length ≤ raw.length) ∧
      runBytes raw i = (raw.drop i).take (runBytes raw i).length := by
  have hp : runBytes raw i <+: (raw.drop i).take 8 := List.takeWhile_prefix _
  have hp2 : runBytes raw i <+: raw.drop i := hp.trans (List.take_prefix _ _)
  have h1 := hp.length_le
  have h2 := hp2.length_le
  simp only [List.length_take, List.length_drop] at h1 h2
  refine ⟨by omega, fun b hb => ?_, by omega, List.prefix_iff_eq_take.1 hp2⟩
  simpa using List.mem_takeWhile_imp hb

/-- The three answers of the literal family (R111). -/
theorem literalToken_cases (raw : List Byte) (i : Nat) (c : Byte) :
    (∃ n, raw[i + 1]? = some n ∧ c = Config.space ∧ pairchar n = true ∧
      literalToken raw i c = ([n ^^^ 0x80#8], 2)) ∨
    (plain c = true ∧ literalToken raw i c = ([c], 1) ∧
      (c = Config.space → ∀ n, raw[i + 1]? = some n → pairchar n = false)) ∨
    (plain c = false ∧ literalToken raw i c =
      (BitVec.ofNat 8 (runBytes raw i).length :: runBytes raw i, (runBytes raw i).length)) := by
  unfold literalToken
  split
  · rename_i n hn
    split
    · rename_i h; exact .inl ⟨n, hn, h.1, h.2, rfl⟩
    · rename_i h
      split
      · rename_i hp
        refine .inr (.inl ⟨hp, rfl, fun hc n' hn' => ?_⟩)
        rw [hn] at hn'; cases hn'
        exact Bool.eq_false_iff.2 fun hpc => h ⟨hc, hpc⟩
      · rename_i hp
        exact .inr (.inr ⟨by simpa using hp, rfl⟩)
  · rename_i hn
    split
    · rename_i hp
      refine .inr (.inl ⟨hp, rfl, fun hc n' hn' => ?_⟩)
      rw [hn] at hn'; cases hn'
    · rename_i hp
      exact .inr (.inr ⟨by simpa using hp, rfl⟩)

/-- Emitting a token appends it and moves the cursor, or raises OutOfMemory. -/
theorem Encoder.emit_ok {p : Config.Params} {token : List Byte} {adv : Nat} {en en' : Encoder}
    (h : en.emit p token adv = .ok en') :
    (fits p.codeCap (en.e + token.length) = true ∧ en' = { en with
      code := writeAll en.code en.e token, e := en.e + token.length, i := en.i + adv }) ∨
    ∃ first, en.rawRead en.i = .ok first ∧ en' = en.raiseMemory first := by
  rw [Encoder.emit_eq] at h
  split at h
  · cases h; exact .inl ⟨by assumption, rfl⟩
  · cases hr : en.rawRead en.i with
    | error f => rw [hr] at h; cases h
    | ok b => rw [hr] at h; cases h; exact .inr ⟨b, rfl, rfl⟩

end Sys2Proof.Machine
end

