-- ==== Sys2Proof/Laws/PerInstr.lean ====
section
/-! SUPPORT. Claims made of every instruction, one lemma per constructor: the first byte of a
well-formed token's encoding alone gives its length (R54, R63, R71). -/

namespace Sys2Proof.Laws.EncodedLength

/-- The first byte of the encoding says how long the encoding is. -/
def Statement (i : Instr) : Prop :=
  i.wf = true → ∃ c bs, encode i = c :: bs ∧ tokenLength c = (encode i).length

theorem lit (b : Byte) : Statement (.lit b) := by
  intro h
  simp only [Instr.wf, Instr.litByteOk, Bool.or_eq_true, beq_iff_eq, Bool.and_eq_true,
    decide_eq_true_eq] at h
  refine ⟨_, _, rfl, ?_⟩
  simp only [tokenLength, encode]
  rw [if_neg (by omega), if_pos (by omega)]; rfl

theorem run (payload : List Byte) : Statement (.run payload) := by
  intro h
  simp only [Instr.wf, Instr.runCountOk, Bool.and_eq_true, decide_eq_true_eq] at h
  have hc : (BitVec.ofNat 8 payload.length).toNat = payload.length := by simp; omega
  refine ⟨_, _, rfl, ?_⟩
  simp only [tokenLength, encode, hc]
  rw [if_pos (by omega)]; simp; omega

theorem bref (distance : BitVec 11) (lm3 : BitVec 3) : Statement (.bref distance lm3) := by
  intro _
  have := high_pack distance lm3
  refine ⟨_, _, rfl, ?_⟩
  simp only [tokenLength, encode]
  rw [if_neg (by omega), if_neg (by omega), if_neg (by omega)]; rfl

theorem spair (q : BitVec 6) : Statement (.spair q) := by
  intro _
  have := spairByte_toNat q
  refine ⟨_, _, rfl, ?_⟩
  simp only [tokenLength, encode]
  rw [if_neg (by omega), if_neg (by omega), if_pos (by omega)]; rfl

end Sys2Proof.Laws.EncodedLength
end

