-- ==== Sys2Proof/Laws/Search.lean ====
section
/-! SUPPORT. What the pieces of the match search can answer, said once each (R99 to R103). -/

namespace Sys2Proof.Machine

open Sys2Proof

/-- Inside a buffer, two positions hold the same byte exactly when they read alike. -/
theorem sameByte_iff {raw : Memory} {n a b : Nat} (h : Buffer raw n) (ha : a < n) (hb : b < n) :
    sameByte raw a b = true ↔ Memory.read raw a = Memory.read raw b := by
  obtain ⟨x, hx⟩ := h.read_isSome ha
  obtain ⟨y, hy⟩ := h.read_isSome hb
  simp [sameByte, hx, hy]

/-- The window compare inside a buffer (R102). -/
theorem windowEq_iff {raw : Memory} {n j i L : Nat} (h : Buffer raw n) (hj : j + L ≤ n)
    (hi : i + L ≤ n) :
    windowEq raw j i L = true ↔
      ∀ k, k < L → Memory.read raw (j + k) = Memory.read raw (i + k) := by
  induction L with
  | zero => simp [windowEq]
  | succ L ih =>
    simp only [windowEq, Bool.and_eq_true, ih (by omega) (by omega)]
    rw [sameByte_iff h (by omega) (by omega)]
    constructor
    · intro ⟨h1, h2⟩ k hk
      by_cases hk' : k < L
      · exact h1 k hk'
      · obtain rfl : k = L := by omega
        exact h2
    · exact fun h1 => ⟨fun k hk => h1 k (by omega), h1 L (by omega)⟩

/-- The scan's hit is in its range, matches, and no nearer candidate does (R101). -/
theorem scanBack_some {raw : Memory} {i lo L n j : Nat} (h : scanBack raw i lo L n = some j) :
    lo ≤ j ∧ j < lo + n ∧ windowEq raw j i L = true ∧
      ∀ j', j < j' → j' < lo + n → windowEq raw j' i L = false := by
  induction n with
  | zero => cases h
  | succ n ih =>
    simp only [scanBack] at h
    split at h
    · cases h
      exact ⟨by omega, by omega, by assumption, fun j' h1 h2 => by omega⟩
    · obtain ⟨h1, h2, h3, h4⟩ := ih h
      refine ⟨h1, by omega, h3, fun j' h5 h6 => ?_⟩
      by_cases hj : j' = lo + n
      · subst hj; exact Bool.eq_false_iff.2 ‹_›
      · exact h4 j' h5 (by omega)

/-- A scan without a hit has no candidate that matches. -/
theorem scanBack_none {raw : Memory} {i lo L n : Nat} (h : scanBack raw i lo L n = none) :
    ∀ j, lo ≤ j → j < lo + n → windowEq raw j i L = false := by
  induction n with
  | zero => intro j _ _; omega
  | succ n ih =>
    simp only [scanBack] at h
    split at h
    · cases h
    · intro j h5 h6
      by_cases hj : j = lo + n
      · subst hj; exact Bool.eq_false_iff.2 ‹_›
      · exact ih h j h5 (by omega)

/-- The length loop's hit: the first length, from the longest down, whose scan hits (R100). -/
theorem searchLengths_some {raw : Memory} {i j L : Nat} (n : Nat)
    (h : searchLengths raw i n = some (j, L)) :
    3 ≤ L ∧ L < n + 3 ∧ scanLength raw i L = some j ∧
      ∀ L', L < L' → L' < n + 3 → scanLength raw i L' = none := by
  induction n with
  | zero => cases h
  | succ n ih =>
    rw [searchLengths] at h
    cases hs : scanLength raw i (n + Config.lenMin) with
    | some j' =>
      rw [hs] at h
      cases h
      refine ⟨Nat.le_add_left _ _, ?_, hs, fun L' h1 h2 => ?_⟩
      · show n + 3 < n + 1 + 3; omega
      · replace h1 : n + 3 < L' := h1; omega
    | none =>
      rw [hs] at h
      obtain ⟨h1, h2, h3, h4⟩ := ih h
      refine ⟨h1, by omega, h3, fun L' h5 h6 => ?_⟩
      by_cases hL : L' = n + 3
      · rw [hL]; exact hs
      · exact h4 L' h5 (by omega)

/-- The length loop without a hit has tried every length (R100). -/
theorem searchLengths_none {raw : Memory} {i : Nat} (n : Nat)
    (h : searchLengths raw i n = none) :
    ∀ L, 3 ≤ L → L < n + 3 → scanLength raw i L = none := by
  induction n with
  | zero => intro L _ _; omega
  | succ n ih =>
    rw [searchLengths] at h
    cases hs : scanLength raw i (n + Config.lenMin) with
    | some j' => rw [hs] at h; cases h
    | none =>
      rw [hs] at h
      intro L h1 h2
      by_cases hL : L = n + 3
      · rw [hL]; exact hs
      · exact ih h L h1 (by omega)

/-- The margin condition (R99). -/
theorem marginOk_iff {n i : Nat} : marginOk n i = true ↔ 10 ≤ i ∧ 10 ≤ n - i := by
  rw [marginOk, Bool.and_eq_true, decide_eq_true_iff, decide_eq_true_iff]; rfl

/-- The ranges of a match (R99 to R101, R104). -/
theorem refMatch_range {raw : Memory} {n i j L : Nat} (h : refMatch raw n i = some (j, L)) :
    10 ≤ i ∧ 10 ≤ n - i ∧ 3 ≤ L ∧ L ≤ 10 ∧ j + L ≤ i ∧ i - 2047 ≤ j := by
  unfold refMatch at h
  split at h
  · rename_i hm
    rw [marginOk_iff] at hm
    obtain ⟨h1, h2, h3, -⟩ := searchLengths_some 8 h
    simp only [scanLength, scanLow, Config.distMax] at h3
    obtain ⟨h5, h6, -⟩ := scanBack_some h3
    omega
  · cases h

end Sys2Proof.Machine
end

