-- ==== Sys2Proof/Laws/Tokens.lean ====
section
/-! SUPPORT. What a token's body can do, said once: it appends all its bytes, or it raises. Every claim
about tokens derives from these inversions. -/

namespace Sys2Proof.Machine

open Sys2Proof

/-- The decoder after a token of `len` stream bytes that appended `bs`. -/
def Decoder.afterAppend (len : Nat) (bs : List Byte) (r : DecLatches) (d : Decoder) : Decoder :=
  { d with i := d.i + len, out := writeAll d.out d.o bs, o := d.o + bs.length, latch := r }

/-- The decoder after a token that raised, `k` of its bytes consumed. -/
def Decoder.afterRaise (k : Nat) (err : ErrCode) (cause : Cause) (first : Byte) (r : DecLatches)
    (d : Decoder) : Decoder :=
  { d with i := d.i + k, port := ⟨.err, err, ⟨cause, d.i, first, d.o⟩⟩, latch := r }

/-- `OutAppend` that answers has written at `o` within the capacity. -/
theorem Decoder.outAppend_ok {p : Config.Params} {b : Byte} {d d' : Decoder}
    (h : d.outAppend p b = .ok d') :
    fits p.outCap (d.o + 1) = true ∧
      d' = { d with out := Memory.write d.out d.o b, o := d.o + 1 } := by
  unfold Decoder.outAppend at h
  split at h
  · exact ⟨by assumption, by cases h; rfl⟩
  · cases h

/-- A copy that answers has appended `n` bytes within the capacity. -/
theorem Decoder.copyLoop_ok {p : Config.Params} {n : Nat} {d d' : Decoder}
    (h : d.copyLoop p n = .ok d') :
    ∃ bs r, bs.length = n ∧ d' = d.afterAppend 0 bs r := by
  induction n generalizing d with
  | zero => cases h; exact ⟨[], _, rfl, rfl⟩
  | succ n ih =>
    rw [Decoder.copyLoop, Decoder.copyMicro] at h
    cases hr : d.outRead (d.o - d.latch.dist.toNat) with
    | error f => rw [hr] at h; cases h
    | ok b =>
      rw [hr] at h
      cases ha : d.outAppend p b with
      | error f => simp only [Except.bind, ha, Except.map] at h; cases h
      | ok d1 =>
        simp only [Except.bind, ha, Except.map] at h
        obtain ⟨bs, r, hl, rfl⟩ := ih h
        obtain ⟨-, rfl⟩ := Decoder.outAppend_ok ha
        exact ⟨b :: bs, r, by simp [hl], by
          simp [Decoder.afterAppend, Nat.add_assoc, Nat.add_comm 1]⟩

/-- What the end of LIT and of SPAIR can do. -/
theorem Decoder.appendOrRaise_eq (p : Config.Params) (iTok : Nat) (bs : List Byte) (d : Decoder) :
    d.appendOrRaise p iTok bs =
      if fits p.outCap (d.o + bs.length) then .ok (d.afterAppend 0 bs d.latch)
      else .ok (d.raiseMemory iTok) := by
  unfold Decoder.appendOrRaise
  split
  · rename_i h; rw [Decoder.outAppendAll_eq bs h]; rfl
  · rfl

/-- What LIT can do. -/
theorem Decoder.litBody_eq (p : Config.Params) (b : Byte) (d : Decoder) :
    ∃ r, d.litBody p b =
      if fits p.outCap (d.o + 1) then .ok (d.afterAppend 1 [b] r)
      else .ok (d.afterRaise 1 .outOfMemory .none b r) :=
  ⟨_, Decoder.appendOrRaise_eq ..⟩

/-- What SPAIR can do. -/
theorem Decoder.spairBody_eq (p : Config.Params) (q : BitVec 6) (d : Decoder) :
    ∃ r, d.spairBody p q =
      if fits p.outCap (d.o + 2) then
        .ok (d.afterAppend 1 [Config.space, pairFlip (spairByte q)] r)
      else .ok (d.afterRaise 1 .outOfMemory .none (spairByte q) r) :=
  ⟨_, Decoder.appendOrRaise_eq ..⟩

/-- What RUN can do. -/
theorem Decoder.runBody_eq (p : Config.Params) (payload : List Byte) (d : Decoder) :
    ∃ r, d.runBody p payload =
      if d.inLen - (d.i + 1) < payload.length then
        .ok (d.afterRaise 1 .corruptStream .truncRun (BitVec.ofNat 8 payload.length) r)
      else if fits p.outCap (d.o + payload.length) then
        .ok (d.afterAppend (1 + payload.length) payload r)
      else .ok (d.afterRaise 1 .outOfMemory .none (BitVec.ofNat 8 payload.length) r) := by
  unfold Decoder.runBody
  simp only [Decoder.beginToken_inLen, Decoder.beginToken_i, Decoder.beginToken_o]
  by_cases h1 : d.inLen - (d.i + 1) < payload.length
  · simp only [h1, ↓reduceIte]
    exact ⟨_, rfl⟩
  · simp only [h1, ↓reduceIte]
    by_cases h2 : fits p.outCap (d.o + payload.length) = true
    · simp only [h2, ↓reduceIte]
      obtain ⟨r, hr⟩ := Decoder.runLoop_eq (p := p) payload
        (d := (d.beginToken (BitVec.ofNat 8 payload.length)).setRem (BitVec.ofNat 4 payload.length))
        (by simpa using h2)
      exact ⟨r, by rw [hr]; simp [Decoder.afterAppend, Nat.add_assoc]⟩
    · simp only [h2, ↓reduceIte, Bool.false_eq_true]
      exact ⟨_, rfl⟩

/-- The latched length is the token's (R88). -/
theorem latchLength_pack (distance : BitVec 11) (lm3 : BitVec 3) :
    (latchLength (packBref distance lm3)).toNat = lengthOf lm3 := by
  have := lm3.isLt
  rw [latchLength, fieldLm3_pack, lengthOf]
  simp [BitVec.toNat_add, BitVec.toNat_setWidth]
  omega

/-- What BREF can do, its operands as they stand (R87 to R90, R135): the errors in their order, or the
copy. -/
theorem Decoder.brefBody_eq (p : Config.Params) (distance : BitVec 11) (lm3 : BitVec 3)
    (d : Decoder) :
    ∃ r r1 r2, r.dist = distance ∧ d.brefBody p distance lm3 =
      let first := highByte (packBref distance lm3)
      if d.inLen ≤ d.i + 1 then .ok (d.afterRaise 1 .corruptStream .truncBref first r1)
      else if distance.toNat = 0 then .ok (d.afterRaise 2 .corruptStream .distZero first r2)
      else if d.o < distance.toNat then .ok (d.afterRaise 2 .corruptStream .distance first r2)
      else if fits p.outCap (d.o + lengthOf lm3) then
        Decoder.copyLoop p (lengthOf lm3) { d with i := d.i + 2, latch := r }
      else .ok (d.afterRaise 2 .outOfMemory .none first r2) := by
  refine ⟨(((d.beginToken (highByte (packBref distance lm3))).latchBref
    (packBref distance lm3)).setRem (latchLength (packBref distance lm3))).latch,
    (d.beginToken (highByte (packBref distance lm3))).latch,
    ((d.beginToken (highByte (packBref distance lm3))).latchBref (packBref distance lm3)).latch,
    fieldDistance_pack .., ?_⟩
  have hd : ((d.beginToken (highByte (packBref distance lm3))).latchBref
      (packBref distance lm3)).latch.dist = distance := fieldDistance_pack ..
  have hl : ((d.beginToken (highByte (packBref distance lm3))).latchBref
      (packBref distance lm3)).latch.clen.toNat = lengthOf lm3 := latchLength_pack ..
  unfold Decoder.brefBody Decoder.checkAndCopy
  simp only [hd, hl]
  rfl

/-- BREF that completes from a good output appends the bytes that `copyBytes` gives. -/
theorem Decoder.brefBody_copies (p : Config.Params) (distance : BitVec 11) (lm3 : BitVec 3)
    {d : Decoder} (hb : Buffer d.out d.o) (hi : d.i + 1 < d.inLen) (h1 : 1 ≤ distance.toNat)
    (h2 : distance.toNat ≤ d.o) (hf : fits p.outCap (d.o + lengthOf lm3) = true) :
    ∃ bs r, d.brefBody p distance lm3 = .ok (d.afterAppend 2 bs r) ∧
      bs.length = lengthOf lm3 ∧
      copyBytes distance.toNat (lengthOf lm3) (Memory.bytes d.out) = Memory.bytes d.out ++ bs := by
  obtain ⟨r, r1, r2, hr, he⟩ := Decoder.brefBody_eq p distance lm3 d
  simp only [Nat.not_le.2 hi, Nat.ne_of_gt h1, Nat.not_lt.2 h2, hf, ↓reduceIte] at he
  obtain ⟨r', hc⟩ := Decoder.copyLoop_eq (p := p) (lengthOf lm3)
    (d := { d with i := d.i + 2, latch := r }) hb (by simpa [hr] using h1)
    (by simpa [hr] using h2) hf
  obtain ⟨bs, r'', hl, hbs⟩ := Decoder.copyLoop_ok hc
  have hout := congrArg (fun d' : Decoder => Memory.bytes d'.out) hbs
  simp only [Decoder.afterAppend, hb.bytes_writeAll, Memory.bytes_ofBytes, hr] at hout
  refine ⟨bs, r'', ?_, hl, hout⟩
  rw [he, hc, hbs]
  rfl

/-- What a BREF that answers has done, in any state. -/
theorem Decoder.brefBody_ok {p : Config.Params} {distance : BitVec 11} {lm3 : BitVec 3}
    {d d' : Decoder} (h : d.brefBody p distance lm3 = .ok d') :
    (∃ bs r, bs.length = lengthOf lm3 ∧ d' = d.afterAppend 2 bs r ∧ d.i + 1 < d.inLen ∧
      1 ≤ distance.toNat ∧ distance.toNat ≤ d.o ∧ fits p.outCap (d.o + lengthOf lm3) = true) ∨
    ∃ k err cause r, 1 ≤ k ∧ k ≤ 2 ∧ (k = 2 → d.i + 1 < d.inLen) ∧ err ≠ ErrCode.none ∧
      d' = d.afterRaise k err cause (highByte (packBref distance lm3)) r := by
  obtain ⟨r, r1, r2, hr, he⟩ := Decoder.brefBody_eq p distance lm3 d
  rw [he] at h
  simp only at h
  split at h
  · cases h; exact .inr ⟨1, _, _, _, by omega, by omega, by omega, by simp, rfl⟩
  · split at h
    · cases h; exact .inr ⟨2, _, _, _, by omega, by omega, by omega, by simp, rfl⟩
    · split at h
      · cases h; exact .inr ⟨2, _, _, _, by omega, by omega, by omega, by simp, rfl⟩
      · split at h
        · obtain ⟨bs, r', hl, rfl⟩ := Decoder.copyLoop_ok h
          exact .inl ⟨bs, r', hl, rfl, by omega, by omega, by omega, by assumption⟩
        · cases h; exact .inr ⟨2, _, _, _, by omega, by omega, by omega, by simp, rfl⟩

end Sys2Proof.Machine
end

