-- ==== Sys2Proof/Laws/Step.lean ====
section
/-! SUPPORT. What a step can do, said once per transition: `exec`, a decoder step, an encoder step, and
a step of the machine. Every claim over all steps derives from these inversions. -/

namespace Sys2Proof.Machine

open Sys2Proof

/-- A decoder that appends `bs` for `len` stream bytes, or raises, its latches released. -/
def Decoder.Moved (p : Config.Params) (len : Nat) (bs : List Byte) (d d' : Decoder) : Prop :=
  ∃ r, d' = (d.afterAppend len bs r).release ∧ fits p.outCap (d.o + bs.length) = true ∧
    (d.i < d.inLen → d.i + len ≤ d.inLen)

/-- A decoder that raised with `k` bytes of its token consumed, its latches released. -/
def Decoder.Raised (k : Nat) (d d' : Decoder) : Prop :=
  ∃ err cause first r, err ≠ ErrCode.none ∧ 1 ≤ k ∧ (d.i < d.inLen → d.i + k ≤ d.inLen) ∧
    d' = (d.afterRaise k err cause first r).release

/-- What `exec` can answer. -/
theorem exec_cases {i : Instr} {s t : State} (h : exec i s = .next t) :
    ∃ d', t = { s with dec := d' } ∧
      ((∃ bs, bs.length = outputLength i ∧ s.dec.Moved s.params (encode i).length bs d') ∨
        ∃ k, k ≤ (encode i).length ∧ s.dec.Raised k d') := by
  cases i with
  | lit b =>
    obtain ⟨r, hr⟩ := Decoder.litBody_eq s.params b s.dec
    simp only [exec, execLit, hr] at h
    split at h <;> cases h
    · exact ⟨_, rfl, .inl ⟨[b], rfl, r, rfl, by simpa, by simp [encode]⟩⟩
    · exact ⟨_, rfl, .inr ⟨1, by simp [encode], _, _, _, _, by simp, by omega, by omega, rfl⟩⟩
  | run p =>
    obtain ⟨r, hr⟩ := Decoder.runBody_eq s.params p s.dec
    simp only [exec, execRun, hr] at h
    split at h
    · cases h
      exact ⟨_, rfl, .inr ⟨1, by simp [encode], _, _, _, _, by simp, by omega, by omega, rfl⟩⟩
    · split at h <;> cases h
      · refine ⟨_, rfl, .inl ⟨p, rfl, r, ?_, by assumption, by simp [encode]; omega⟩⟩
        rw [show (encode (.run p)).length = 1 + p.length by simp [encode]; omega]
      · exact ⟨_, rfl, .inr ⟨1, by simp [encode], _, _, _, _, by simp, by omega, by omega, rfl⟩⟩
  | bref d l =>
    simp only [exec, execBref] at h
    cases hb : s.dec.brefBody s.params d l with
    | error f => rw [hb] at h; cases h
    | ok d' =>
      rw [hb] at h
      cases h
      rcases Decoder.brefBody_ok hb with
        ⟨bs, r, hl, rfl, hi, h1, h2, hf⟩ | ⟨k, e, c, r, h1, h2, h3, h4, rfl⟩
      · exact ⟨_, rfl, .inl ⟨bs, hl, r, rfl, by rwa [hl], by simp [encode]; omega⟩⟩
      · exact ⟨_, rfl, .inr ⟨k, by simpa [encode] using h2, e, c, _, r, h4, h1, by omega, rfl⟩⟩
  | spair q =>
    obtain ⟨r, hr⟩ := Decoder.spairBody_eq s.params q s.dec
    simp only [exec, execSpair, hr] at h
    split at h <;> cases h
    · exact ⟨_, rfl, .inl ⟨[_, _], rfl, r, rfl, by simpa, by simp [encode]⟩⟩
    · exact ⟨_, rfl, .inr ⟨1, by simp [encode], _, _, _, _, by simp, by omega, by omega, rfl⟩⟩

theorem encode_length_pos (i : Instr) : 1 ≤ (encode i).length := by cases i <;> simp [encode]

/-- A token appends at most five bytes for each of its own (R83). -/
theorem outputLength_le (i : Instr) : outputLength i ≤ 5 * (encode i).length := by
  cases i with
  | bref d l => have := lengthOf_lt l; simp [outputLength, encode]; omega
  | lit | run | spair => simp [outputLength, encode] <;> omega

/-- What a decoder step can answer: nothing to do, the end of the run, a token's appends, an error. -/
theorem decoderStep_cases {s t : State} (h : decoderStep s = .next t) :
    (s.dec.port.status ≠ .run ∧ t = s) ∨
    (s.dec.port.status = .run ∧ s.dec.inLen ≤ s.dec.i ∧ t = { s with dec := s.dec.finish }) ∨
    (s.dec.port.status = .run ∧ s.dec.i < s.dec.inLen ∧ ∃ d', t = { s with dec := d' } ∧
      ((∃ len bs, 1 ≤ len ∧ bs.length ≤ 5 * len ∧ s.dec.Moved s.params len bs d') ∨
        ∃ k, s.dec.Raised k d')) := by
  unfold decoderStep at h
  split at h
  · rename_i hr
    split at h
    · cases h; exact .inr (.inl ⟨hr, by assumption, rfl⟩)
    · rename_i hi
      refine .inr (.inr ⟨hr, by omega, ?_⟩)
      split at h
      · unfold runFetched at h
        split at h
        · rename_i i _ _
          have h1 := encode_length_pos i
          have h5 := outputLength_le i
          obtain ⟨d', rfl, ⟨bs, hl, hm⟩ | ⟨k, -, hm⟩⟩ := exec_cases h
          · exact ⟨d', rfl, .inl ⟨_, bs, h1, by omega, hm⟩⟩
          · exact ⟨d', rfl, .inr ⟨k, hm⟩⟩
        · cases h
          exact ⟨_, rfl, .inr ⟨1, _, _, _, { s.dec.latch with c := _ }, by simp, by omega, by omega, rfl⟩⟩
        · cases h
          exact ⟨_, rfl, .inr ⟨1, _, _, _, { s.dec.latch with c := _ }, by simp, by omega, by omega, rfl⟩⟩
        · cases h
      · cases h
  · cases h; exact .inl ⟨by assumption, rfl⟩

/-- An encoder that emits `token` for `adv` raw bytes; its working registers are what they are. -/
def Encoder.Emitted (p : Config.Params) (token : List Byte) (adv : Nat) (en en' : Encoder) : Prop :=
  fits p.codeCap (en.e + token.length) = true ∧ ∃ r n, en' = { en with
    code := writeAll en.code en.e token, e := en.e + token.length, i := en.i + adv, latch := r, draws := n }

/-- An encoder that raised OutOfMemory. -/
def Encoder.Filled (en en' : Encoder) : Prop :=
  ∃ first r n, en' = { en with
    port := ⟨.err, .outOfMemory, ⟨.none, en.i, first, en.e⟩⟩, latch := r, draws := n }

theorem Encoder.emit_moves {p : Config.Params} {token : List Byte} {adv : Nat} {en en' : Encoder}
    {r : EncLatches} (h : ({ en with latch := r } : Encoder).emit p token adv = .ok en') :
    (∃ token adv, en.Emitted p token adv en') ∨ en.Filled en' := by
  rcases Encoder.emit_ok h with ⟨hf, rfl⟩ | ⟨first, -, rfl⟩
  · exact .inl ⟨token, adv, hf, r, en.draws, rfl⟩
  · exact .inr ⟨first, r, en.draws, rfl⟩

theorem bind_ok {α β : Type} {x : Except Fault α} {f : α → Except Fault β} {b : β}
    (h : x.bind f = .ok b) : ∃ a, x = .ok a ∧ f a = .ok b := by
  cases x with
  | error e => cases h
  | ok a => exact ⟨a, rfl, h⟩

/-- What the literal family can answer. -/
theorem Encoder.literalFamily_moves {p : Config.Params} {en en' : Encoder} {r : EncLatches}
    (h : ({ en with latch := r } : Encoder).literalFamily p = .ok en') :
    (∃ token adv, en.Emitted p token adv en') ∨ en.Filled en' := by
  obtain ⟨c, -, h⟩ := bind_ok h
  obtain ⟨pair, -, h⟩ := bind_ok h
  split at h
  · obtain ⟨n, -, h⟩ := bind_ok h
    exact Encoder.emit_moves h
  · split at h
    · obtain ⟨n, -, h⟩ := bind_ok h
      exact Encoder.emit_moves h
    · obtain ⟨cnt, -, h⟩ := bind_ok h
      obtain ⟨payload, -, h⟩ := bind_ok h
      exact Encoder.emit_moves h

/-- The search writes working registers only. -/
theorem Encoder.search_latch (policy : MatchPolicy) (en : Encoder) :
    ∃ r, en.search policy = { en with latch := r } := by
  unfold Encoder.search; split <;> exact ⟨_, rfl⟩

/-- What an encoder step can answer, for any policy: the end of the run, an emission, OutOfMemory. -/
theorem Encoder.stepWith_cases {policy : MatchPolicy} {p : Config.Params} {en en' : Encoder}
    (h : en.stepWith policy p = .ok en') :
    (en.rawLen ≤ en.i ∧ en' = en.finish) ∨
    (en.i < en.rawLen ∧ ((∃ token adv, en.Emitted p token adv en') ∨ en.Filled en')) := by
  unfold Encoder.stepWith at h
  split at h
  · cases h; exact .inl ⟨by assumption, rfl⟩
  · refine .inr ⟨by omega, ?_⟩
    obtain ⟨r, hs⟩ := Encoder.search_latch policy en
    simp only at h
    cases hx : (if (en.search policy).latch.found then (en.search policy).emitBref p
        else (en.search policy).literalFamily p) with
    | error f => rw [hx] at h; cases h
    | ok en1 =>
      rw [hx] at h
      cases h
      have : (∃ token adv, en.Emitted p token adv en1) ∨ en.Filled en1 := by
        rw [hs] at hx
        split at hx
        · exact Encoder.emit_moves hx
        · exact Encoder.literalFamily_moves hx
      rcases this with ⟨token, adv, hf, r, n, rfl⟩ | ⟨first, r, n, rfl⟩
      · exact .inl ⟨token, adv, hf, _, _, rfl⟩
      · exact .inr ⟨first, _, _, rfl⟩

/-- What an encoder step of the machine can answer. -/
theorem encoderStep_cases {s t : State} (h : encoderStep s = .next t) :
    (s.enc.port.status ≠ .run ∧ t = s) ∨
    (s.enc.port.status = .run ∧ ∃ en', t = { s with enc := en' } ∧
      s.enc.stepWith refMatch s.params = .ok en') := by
  unfold encoderStep at h
  split at h
  · rename_i hr
    refine .inr ⟨hr, ?_⟩
    cases he : s.enc.stepWith refMatch s.params with
    | error f => rw [he] at h; cases h
    | ok en' => rw [he] at h; cases h; exact ⟨en', rfl, rfl⟩
  · cases h; exact .inl ⟨by assumption, rfl⟩

/-- What a step of the machine can be: a host command, a decoder step or an encoder step. -/
theorem step_cases {s t : State} (h : step s = .next t) :
    (∃ block buffer rest, s.schedule = .start block buffer :: rest ∧
      t = hostStart block buffer { s with schedule := rest }) ∨
    (∃ block rest, s.schedule = .reset block :: rest ∧
      t = hostReset block { s with schedule := rest }) ∨
    (∃ rest, (s.schedule = .decoder :: rest ∨
        (s.schedule = [] ∧ rest = [] ∧ s.dec.port.status = .run)) ∧
      decoderStep { s with schedule := rest } = .next t) ∨
    (∃ rest, (s.schedule = .encoder :: rest ∨
        (s.schedule = [] ∧ rest = [] ∧ s.dec.port.status ≠ .run)) ∧
      encoderStep { s with schedule := rest } = .next t) := by
  unfold step machineStep at h
  split at h
  · rename_i hs
    unfold runUnscheduled at h
    have : s = { s with schedule := [] } := by cases s; simp_all
    split at h
    · exact .inr (.inr (.inl ⟨[], .inr ⟨hs, rfl, by assumption⟩, this ▸ h⟩))
    · exact .inr (.inr (.inr ⟨[], .inr ⟨hs, rfl, by assumption⟩, this ▸ h⟩))
  · rename_i ev rest hs
    cases ev with
    | start block buffer => cases h; exact .inl ⟨block, buffer, rest, hs, rfl⟩
    | reset block => cases h; exact .inr (.inl ⟨block, rest, hs, rfl⟩)
    | decoder => exact .inr (.inr (.inl ⟨rest, .inl hs, h⟩))
    | encoder => exact .inr (.inr (.inr ⟨rest, .inl hs, h⟩))

end Sys2Proof.Machine
end

