-- ==== Sys2Proof/Tests/Slice0.lean ====
section
/-! SUPPORT. The author's own tests: words and vectors of spec/95_test_vectors.md (its ids are named at
each test), and for every obligation with hypotheses a witness that meets them. -/

namespace Sys2Proof.Tests

open Sys2Proof Sys2Proof.Machine

/-! ### Small states -/

/-- A decoder in the middle of a call: `i` bytes of the stream consumed, `out` produced. -/
def decoding (stream : List Byte) (i : Nat) (out : List Byte) (cap : Option Nat) : State where
  dec := { input := Memory.ofBytes stream, inLen := stream.length, i := i,
           out := Memory.ofBytes out, o := out.length, port := ⟨.run, .none, ⟨.none, 0, 0, 0⟩⟩,
           latch := ⟨0, 0, 0, 0, 0⟩, draws := 0 }
  enc := { raw := [], rawLen := 0, i := 0, code := [], e := 0,
           port := ⟨.idle, .none, ⟨.none, 0, 0, 0⟩⟩, latch := ⟨0, 0, 0, false, 0, 0⟩, draws := 0 }
  params := { Config.Params.unbounded with outCap := cap }
  schedule := []

/-- An encoder in the middle of a call: `i` raw bytes consumed, `code` emitted. -/
def encoding (raw : List Byte) (i : Nat) (code : List Byte) (cap : Option Nat) : State where
  dec := { input := [], inLen := 0, i := 0, out := [], o := 0,
           port := ⟨.idle, .none, ⟨.none, 0, 0, 0⟩⟩, latch := ⟨0, 0, 0, 0, 0⟩, draws := 0 }
  enc := { raw := Memory.ofBytes raw, rawLen := raw.length, i := i,
           code := Memory.ofBytes code, e := code.length, port := ⟨.run, .none, ⟨.none, 0, 0, 0⟩⟩,
           latch := ⟨0, 0, 0, false, 0, 0⟩, draws := 0 }
  params := { Config.Params.unbounded with codeCap := cap }
  schedule := []

/-- The decoder after a step: OUT, `i`, `status`, `err`, and the record of an error. -/
def decAfter (r : Host.Outcome State Fault Refusal) :
    Option (List Byte × Nat × Status × ErrCode × Option ErrInfo) :=
  match r with
  | .next t => some (Memory.bytes t.dec.out, t.dec.i, t.dec.port.status, t.dec.port.err,
      t.dec.port.readErrInfo)
  | _ => none

/-- The encoder after a step: CODE, `i`, `status`, `err`, and the record of an error. -/
def encAfter (r : Host.Outcome State Fault Refusal) :
    Option (List Byte × Nat × Status × ErrCode × Option ErrInfo) :=
  match r with
  | .next t => some (Memory.bytes t.enc.code, t.enc.i, t.enc.port.status, t.enc.port.err,
      t.enc.port.readErrInfo)
  | _ => none

/-- The 30 raw bytes of S6. -/
def s6 : List Byte :=
  [0x30, 0x31, 0x32, 0x33, 0x34, 0x35, 0x36, 0x37, 0x38, 0x39] ++ List.replicate 10 0x58 ++
    [0x30, 0x31, 0x32, 0x33, 0x34, 0x35, 0x36, 0x37, 0x38, 0x39]

/-! ### Ill-formed terms are refused (R55, R56) -/

theorem test_wf_lit_count : (Instr.lit 0x08).wf = false := by decide
theorem test_wf_lit_high : (Instr.lit 0x80).wf = false := by decide
theorem test_wf_run_empty : (Instr.run []).wf = false := by decide
theorem test_wf_run_nine : (Instr.run (List.replicate 9 0x80)).wf = false := by decide

/-! ### Decoding, from words written out by the formats of R55 to R58 -/

theorem test_decode_lit_zero : decode [0x00] = .ok (.lit 0x00, []) := by decide
theorem test_decode_lit_top : decode [0x7F, 0x80] = .ok (.lit 0x7F, [0x80]) := by decide
theorem test_decode_run_one : decode [0x01, 0x01] = .ok (.run [0x01], []) := by decide
theorem test_decode_run_eight :
    decode [0x08, 0x80, 0x81, 0x82, 0x83, 0x84, 0x85, 0x86, 0x87, 0x90] =
      .ok (.run [0x80, 0x81, 0x82, 0x83, 0x84, 0x85, 0x86, 0x87], [0x90]) := by decide
theorem test_decode_spair_low : decode [0xC0] = .ok (.spair 0b000000, []) := by decide
theorem test_decode_spair_high : decode [0xFF] = .ok (.spair 0b111111, []) := by decide
/-- S6: distance 20, length 10 is `80 A7`. -/
theorem test_decode_bref_s6 : decode [0x80, 0xA7] = .ok (.bref 20 0b111, []) := by decide
/-- VB17: `BF FF` is distance 2047, length 10. -/
theorem test_decode_bref_top : decode [0xBF, 0xFF] = .ok (.bref 2047 0b111, []) := by decide
theorem test_decode_refuses :
    decode [0x03, 0x41, 0x42] = .error (.truncRun 0x03) ∧
      decode [0xBF] = .error (.truncBref 0xBF) := by decide

/-- Words of the opcode table's rows, numbered as it numbers them. -/
theorem test_table_words :
    decodeTableWord 8 0x00 = some (.lit 0x00) ∧ decodeTableWord 8 0x41 = some (.lit 0x41) ∧
      decodeTableWord 8 0x02 = some (.run [0x00, 0x00]) ∧
      decodeTableWord 8 0x08 = some (.run (List.replicate 8 0x00)) ∧
      decodeTableWord 16 0x8015 = some (.bref 2 0b101) ∧
      decodeTableWord 8 0xC2 = some (.spair 0b000010) := by decide

/-- `step` runs a placed word as the first instruction after reset. -/
theorem test_fetch_word_lit :
    decAfter (step (State.reset.withFetchWord 8 0x41)) = some ([0x41], 1, .run, .none, none) := by
  rfl
theorem test_fetch_word_bref :
    decAfter (step (State.reset.withFetchWord 16 0x8015)) =
      some ([], 2, .err, .corruptStream, some ⟨.distance, 0, 0x80, 0⟩) := by
  rfl

/-! ### Tokens, one step each -/

/-- R75: stream `48`. -/
theorem test_lit : decAfter (step (decoding [0x48] 0 [] none)) =
    some ([0x48], 1, .run, .none, none) := by decide
/-- VL6: no room. -/
theorem test_lit_full : decAfter (step (decoding [0x41] 0 [] (some 0))) =
    some ([], 1, .err, .outOfMemory, some ⟨.none, 0, 0x41, 0⟩) := by decide
/-- VR4: the payload is not interpreted. -/
theorem test_run : decAfter (step (decoding [0x02, 0x80, 0x08] 0 [] none)) =
    some ([0x80, 0x08], 3, .run, .none, none) := by decide
/-- VR11: no byte of the run is appended. -/
theorem test_run_full : decAfter (step (decoding [0x03, 0x80, 0x81, 0x82] 0 [] (some 2))) =
    some ([], 1, .err, .outOfMemory, some ⟨.none, 0, 0x03, 0⟩) := by decide
/-- VS4, at its third token. -/
theorem test_spair : decAfter (step (decoding [0x41, 0x61, 0xC2, 0x62] 2 [0x41, 0x61] none)) =
    some ([0x41, 0x61, 0x20, 0x42], 3, .run, .none, none) := by decide
/-- VS5: neither byte is appended. -/
theorem test_spair_full : decAfter (step (decoding [0x41, 0xC2] 1 [0x41] (some 2))) =
    some ([0x41], 2, .err, .outOfMemory, some ⟨.none, 1, 0xC2, 1⟩) := by decide
/-- VB5: length 8 over distance 2. -/
theorem test_bref_overlap : decAfter (step (decoding [0x61, 0x62, 0x80, 0x15] 2 [0x61, 0x62] none)) =
    some ([0x61, 0x62, 0x61, 0x62, 0x61, 0x62, 0x61, 0x62, 0x61, 0x62], 4, .run, .none, none) := by
  decide
/-- VB22: a bad distance comes before no room. -/
theorem test_bref_order : decAfter (step (decoding [0x41, 0x80, 0x10] 1 [0x41] (some 1))) =
    some ([0x41], 3, .err, .corruptStream, some ⟨.distance, 1, 0x80, 1⟩) := by decide

/-- VR10: a truncated run, met in `step`. -/
theorem test_truncated_run : decAfter (step (decoding [0x41, 0x02, 0x80] 1 [0x41] none)) =
    some ([0x41], 2, .err, .corruptStream, some ⟨.truncRun, 1, 0x02, 1⟩) := by decide
/-- VB16: a truncated back-reference. -/
theorem test_truncated_bref : decAfter (step (decoding [0x61, 0x62, 0x80] 2 [0x61, 0x62] none)) =
    some ([0x61, 0x62], 3, .err, .corruptStream, some ⟨.truncBref, 2, 0x80, 2⟩) := by decide

/-- S2: the empty stream ends DONE. -/
theorem test_empty_stream : decAfter (step (decoding [] 0 [] none)) =
    some ([], 0, .done, .none, none) := by decide

/-- VD3: all four kinds, as a function of the stream. -/
theorem test_decode_fn :
    decodeFn none [0x61, 0x62, 0xC3, 0x02, 0x80, 0xFF, 0x80, 0x29, 0x00] =
      .ok [0x61, 0x62, 0x20, 0x43, 0x80, 0xFF, 0x62, 0x20, 0x43, 0x80, 0x00] := by decide

/-! ### Emissions, one step each -/

/-- S4, at its third step. -/
theorem test_emit_spair :
    encAfter (step (encoding [0x41, 0x61, 0x20, 0x42, 0x62] 2 [0x41, 0x61] none)) =
      some ([0x41, 0x61, 0xC2], 4, .run, .none, none) := by decide
/-- VE6: 0x3F is below 0x40. -/
theorem test_emit_lit : encAfter (step (encoding [0x20, 0x3F] 0 [] none)) =
    some ([0x20], 1, .run, .none, none) := by decide
/-- R114: `80 81 41 82` starts with `02 80 81`. -/
theorem test_emit_run : encAfter (step (encoding [0x80, 0x81, 0x41, 0x82] 0 [] none)) =
    some ([0x02, 0x80, 0x81], 2, .run, .none, none) := by decide
/-- VE10 with room for one byte only. -/
theorem test_emit_run_full : encAfter (step (encoding [0x80] 0 [] (some 1))) =
    some ([], 0, .err, .outOfMemory, some ⟨.none, 0, 0x80, 0⟩) := by decide
/-- S6 at `i = 20`: the reference `80 A7`. -/
theorem test_emit_bref : encAfter (step (encoding s6 20 [] none)) =
    some ([0x80, 0xA7], 30, .run, .none, none) := by decide
/-- S6: lengths and positions of the three matches, and none at 12. -/
theorem test_ref_match :
    refMatch (Memory.ofBytes s6) 30 13 = some (10, 3) ∧
      refMatch (Memory.ofBytes s6) 30 16 = some (12, 4) ∧
      refMatch (Memory.ofBytes s6) 30 20 = some (0, 10) ∧
      refMatch (Memory.ofBytes s6) 30 12 = none := by decide

/-! ### The host -/

/-- START loads the call; in RUN it is ignored; RESET abandons it (R25, R26). -/
theorem test_commands :
    decAfter (runEvent (.start .decoder [0xC2]) (decoding [] 0 [] none)) =
      some ([], 0, .run, .none, none) ∧
    decAfter (runEvent (.start .decoder [0xC2]) (decoding [0x41, 0x42] 1 [0x41] none)) =
      some ([0x41], 1, .run, .none, none) ∧
    decAfter (runEvent (.reset .decoder) (decoding [0x41, 0x42] 1 [0x41] none)) =
      some ([], 0, .idle, .none, none) := ⟨rfl, rfl, rfl⟩

/-- R27, R28: in DONE the result and its length; in RUN no value. -/
theorem test_registers :
    let d := (decoding [0x41] 1 [0x41] none).dec
    d.finish.readResult = some [0x41] ∧ d.finish.readOutLen = some 1 ∧ d.readOutLen = none ∧
      d.port.readStatus = 1 ∧ d.finish.port.readStatus = 2 ∧ d.readInLen = none := by decide

/-! ### Witnesses: for every obligation with hypotheses, inputs that meet them

One theorem per obligation, named after it; several clauses over one input get each a witness at the
boundary of its range. -/

/-- A machine with finite parameters, in IDLE, and an event to come. -/
def commanded (ev : Event) (rest : List Event) : State :=
  { decoding [] 0 [] (some 3) with
    dec := { (decoding [] 0 [] (some 3)).dec with port := ⟨.idle, .none, ⟨.none, 0, 0, 0⟩⟩ }
    params := ⟨some 2, some 2, some 3, some 3⟩
    schedule := ev :: rest }

theorem witness_EncodedTokenDecodesBack :
    (Instr.lit 0x00).wf = true ∧ (Instr.lit 0x09).wf = true ∧ (Instr.lit 0x7F).wf = true ∧
      (Instr.run [0x80]).wf = true ∧ (Instr.run (List.replicate 8 0xFF)).wf = true ∧
      (Instr.bref 0 0).wf = true ∧ (Instr.bref 2047 7).wf = true ∧ (Instr.spair 63).wf = true := by
  decide

theorem witness_DecodedTokenReencodes :
    decode [0x80, 0x00, 0x41] = .ok (.bref 0 0, [0x41]) ∧ decode [0x01, 0xFF] = .ok (.run [0xFF], []) := by
  decide

theorem witness_FirstByteSelectsTheKind :
    (0x00#8).toNat = 0 ∧ 9 ≤ (0x09#8).toNat ∧ (0x7F#8).toNat ≤ 0x7F ∧ 1 ≤ (0x01#8).toNat ∧
      (0x08#8).toNat ≤ 8 ∧ (0x08#8).toNat ≤ (List.replicate 8 (0x41 : Byte)).length ∧
      0x80 ≤ (0x80#8).toNat ∧ (0xBF#8).toNat ≤ 0xBF ∧ 0xC0 ≤ (0xC0#8).toNat := by decide

theorem witness_OnlyTruncatedTokensAreRefused :
    decode [0x08, 1, 2, 3, 4, 5, 6, 7] = .error (.truncRun 0x08) ∧
      decode [0x01] = .error (.truncRun 0x01) ∧ decode [0x80] = .error (.truncBref 0x80) ∧
      decode [0xBF] = .error (.truncBref 0xBF) := by decide

theorem witness_BrefOperandsAssemble :
    0x80 ≤ (0x80#8).toNat ∧ (0x80#8).toNat ≤ 0xBF ∧ 0x80 ≤ (0xBF#8).toNat ∧ (0xBF#8).toNat ≤ 0xBF := by
  decide

theorem witness_BrefPackingInverts :
    (1 ≤ 1 ∧ 1 ≤ 2047 ∧ 3 ≤ 3 ∧ 3 ≤ 10) ∧ 1 ≤ 2047 ∧ 2047 ≤ 2047 ∧ 3 ≤ 10 ∧ 10 ≤ 10 := by decide

theorem witness_SpairOperandAssembles :
    0xC0 ≤ (0xC0#8).toNat ∧ 0xC0 ≤ (0xFF#8).toNat ∧ 0x40 ≤ (0x40#8).toNat ∧ (0x7F#8).toNat ≤ 0x7F ∧
      fits (decoding [0xC0] 0 [] (some 2)).params.outCap (0 + 2) = true := by decide

theorem witness_ResetCommandClearsTheBlock :
    (commanded (.reset .decoder) []).schedule = [.reset .decoder] ∧
      (commanded (.reset .encoder) []).schedule = [.reset .encoder] := ⟨rfl, rfl⟩

/-- At IN_CAP (2 bytes) and below the width (`3 < 2^2`). -/
theorem witness_StartLoadsTheCall :
    let s := commanded (.start .decoder [0x41, 0x42]) []
    let s' := commanded (.start .encoder [0x41, 0x42]) []
    fits s.params.inCap 2 = true ∧ fitsWidth s.params.addrW (some 2) = true ∧
      s.schedule = [.start .decoder [0x41, 0x42]] ∧ s.dec.port.status ≠ .run ∧
      fitsWidth s.params.addrW s.params.outCap = true ∧
      s'.schedule = [.start .encoder [0x41, 0x42]] ∧ s'.enc.port.status ≠ .run ∧
      fitsWidth s'.params.addrW s'.params.codeCap = true := by decide

theorem witness_StartInRunIsIgnored :
    let s := { decoding [0x41] 0 [] none with schedule := [.start .decoder [0x42]] }
    let s' := { encoding [0x41] 0 [] none with schedule := [.start .encoder [0x42]] }
    s.schedule = [.start .decoder [0x42]] ∧ s.dec.port.status = .run ∧
      s'.schedule = [.start .encoder [0x42]] ∧ s'.enc.port.status = .run := by decide

/-- One byte above IN_CAP; and a capacity of 4 with a width of 2 bits. -/
theorem witness_RefusedStartLeavesTheBlock :
    let s := commanded (.start .decoder [0x41, 0x42, 0x43]) []
    let s' := commanded (.start .encoder [0x41, 0x42, 0x43]) []
    s.schedule = [.start .decoder [0x41, 0x42, 0x43]] ∧ launchOk s.params s.params.outCap 3 = false ∧
      s'.schedule = [.start .encoder [0x41, 0x42, 0x43]] ∧
      launchOk s'.params s'.params.codeCap 3 = false ∧ launchOk s.params (some 4) 1 = false ∧
      launchOk s.params none 1 = false := by decide

theorem witness_LitAppendsItsByte :
    fits (decoding [0x41] 0 [] (some 1)).params.outCap (0 + 1) = true ∧
      fits (decoding [0x41] 0 [] (some 0)).params.outCap (0 + 1) = false := by decide

/-- Just enough of the stream and of the room; one byte too few of each. -/
theorem witness_RunCopiesItsPayload :
    (Instr.run [0x80, 0x08]).wf = true ∧
      (let s := decoding [0x02, 0x80, 0x08] 0 [] (some 2)
       2 ≤ s.dec.inLen - (s.dec.i + 1) ∧ fits s.params.outCap (s.dec.o + 2) = true) ∧
      (let s := decoding [0x02, 0x80] 0 [] none
       s.dec.inLen - (s.dec.i + 1) < 2) ∧
      (let s := decoding [0x02, 0x80, 0x08] 0 [] (some 1)
       2 ≤ s.dec.inLen - (s.dec.i + 1) ∧ fits s.params.outCap (s.dec.o + 2) = false) := by decide

theorem witness_SpairAppendsSpaceAndByte :
    fits (decoding [0xC2] 0 [] (some 2)).params.outCap (0 + 2) = true ∧
      fits (decoding [0xC2] 0 [] (some 1)).params.outCap (0 + 2) = false := by decide

/-- VB5 with a full buffer after it, and VB1, where the distance is all of the output. -/
theorem witness_BrefRepeatsThePattern :
    (let s := decoding [0x61, 0x62, 0x80, 0x15] 2 [0x61, 0x62] (some 10)
     Buffer s.dec.out s.dec.o ∧ s.dec.i + 1 < s.dec.inLen ∧ 1 ≤ (2#11).toNat ∧
       (2#11).toNat ≤ s.dec.o ∧ fits s.params.outCap (s.dec.o + lengthOf 5#3) = true) ∧
    (let s := decoding [0x61, 0x62, 0x63, 0x80, 0x18] 3 [0x61, 0x62, 0x63] none
     Buffer s.dec.out s.dec.o ∧ s.dec.i + 1 < s.dec.inLen ∧ 1 ≤ (3#11).toNat ∧
       (3#11).toNat ≤ s.dec.o ∧ fits s.params.outCap (s.dec.o + lengthOf 0#3) = true) := by decide

/-- The same hypotheses, with a length above the distance, and a length equal to it. -/
theorem witness_BrefReadsItsOwnWrites :
    (let s := decoding [0x61, 0x80, 0x0F] 1 [0x61] none
     Buffer s.dec.out s.dec.o ∧ s.dec.i + 1 < s.dec.inLen ∧ 1 ≤ (1#11).toNat ∧
       (1#11).toNat ≤ s.dec.o ∧ fits s.params.outCap (s.dec.o + lengthOf 7#3) = true) ∧
    lengthOf 0#3 ≤ (3#11).toNat := by decide

/-- VB14, VB12, VB11 and VB20. -/
theorem witness_BrefChecksInOrder :
    (let s := decoding [0x80] 0 [] none
     s.dec.inLen ≤ s.dec.i + 1) ∧
    (let s := decoding [0x61, 0x80, 0x00] 1 [0x61] none
     s.dec.i + 1 < s.dec.inLen ∧ (0#11).toNat = 0) ∧
    (let s := decoding [0x61, 0x80, 0x10] 1 [0x61] none
     s.dec.i + 1 < s.dec.inLen ∧ s.dec.o < (2#11).toNat) ∧
    (let s := decoding [0x61, 0x62, 0x63, 0x80, 0x18] 3 [0x61, 0x62, 0x63] (some 5)
     s.dec.i + 1 < s.dec.inLen ∧ 1 ≤ (3#11).toNat ∧ (3#11).toNat ≤ s.dec.o ∧
       fits s.params.outCap (s.dec.o + lengthOf 0#3) = false) := by decide

/-- A token that completes and one that raises. -/
theorem witness_TokensAppendAllOrNothing :
    (∃ t, exec (.spair 2) (decoding [0xC2] 0 [] none) = .next t ∧ t.dec.o = 2) ∧
      ∃ t, exec (.spair 2) (decoding [0xC2] 0 [] (some 1)) = .next t ∧ t.dec.port.status = .err :=
  ⟨⟨_, rfl, rfl⟩, _, rfl, rfl⟩

theorem witness_TokensLeaveTheRestAlone :
    ∃ t, exec (.bref 2 5) (decoding [0x61, 0x62, 0x80, 0x15] 2 [0x61, 0x62] none) = .next t ∧
      t.dec.i = 4 := ⟨_, rfl, rfl⟩

theorem witness_StepRunsTheDecodedToken :
    let s := decoding [0x61, 0x62, 0x80, 0x15] 2 [0x61, 0x62] none
    (Instr.bref 2 5).wf = true ∧ s.dec.port.status = .run ∧
      HoldsAt s.dec.input s.dec.i (encode (.bref 2 5)) ∧
      s.dec.i + (encode (.bref 2 5)).length ≤ s.dec.inLen ∧ s.schedule = [] ∧
      ({ s with schedule := [.decoder, .encoder] } : State).schedule = .decoder :: [.encoder] := by
  unfold HoldsAt; decide

theorem witness_DecoderRunEndsDone :
    let s := decoding [0x41] 1 [0x41] none
    s.dec.port.status = .run ∧ s.schedule = [] ∧ s.dec.inLen ≤ s.dec.i := by decide

/-- VR7 and VR8: two bytes of three, and none of one. -/
theorem witness_TruncatedRunRaises :
    (let s := decoding [0x03, 0x41, 0x42] 0 [] none
     s.dec.port.status = .run ∧ s.schedule = [] ∧ s.dec.i < s.dec.inLen ∧
       Memory.read s.dec.input s.dec.i = some 0x03 ∧ s.dec.inLen - (s.dec.i + 1) < 3) ∧
    (let s := decoding [0x01] 0 [] none
     s.dec.i < s.dec.inLen ∧ Memory.read s.dec.input s.dec.i = some 0x01 ∧
       s.dec.inLen - (s.dec.i + 1) < 1) := by decide

/-- VB14 and VB15: both ends of the range of first bytes. -/
theorem witness_TruncatedBrefRaises :
    (let s := decoding [0x80] 0 [] none
     s.dec.port.status = .run ∧ s.schedule = [] ∧ s.dec.i + 1 = s.dec.inLen ∧
       Memory.read s.dec.input s.dec.i = some 0x80) ∧
    (let s := decoding [0xBF] 0 [] none
     s.dec.i + 1 = s.dec.inLen ∧ Memory.read s.dec.input s.dec.i = some 0xBF) := by decide

/-- Both blocks stopped and a command to the other one next, or no command. -/
theorem witness_StoppedBlocksKeepTheirState :
    (∃ t, step (commanded (.start .encoder [0x41]) []) = .next t) ∧
      (commanded (.start .encoder [0x41]) []).dec.port.status ≠ .run ∧
      (∃ t, step (commanded (.start .decoder [0x41]) []) = .next t) ∧
      (commanded (.start .decoder [0x41]) []).enc.port.status ≠ .run :=
  ⟨⟨_, rfl⟩, by decide, ⟨_, rfl⟩, by decide⟩

/-- Each kind of transition happens. -/
theorem witness_StatusMovesOnlyAsStated :
    (∃ t, step (commanded (.start .decoder [0x41]) []) = .next t ∧ t.dec.port.status = .run) ∧
      (∃ t, step (decoding [] 0 [] none) = .next t ∧ t.dec.port.status = .done) ∧
      (∃ t, step (decoding [0x80] 0 [] none) = .next t ∧ t.dec.port.status = .err) ∧
      (∃ t, step { decoding [0x41] 0 [] none with schedule := [.reset .decoder] } = .next t ∧
        t.dec.port.status = .idle) ∧
      (∃ t, step (encoding [] 0 [] none) = .next t ∧ t.enc.port.status = .done) ∧
      ∃ t, step (encoding [0x41] 0 [] (some 0)) = .next t ∧ t.enc.port.status = .err :=
  ⟨⟨_, rfl, rfl⟩, ⟨_, rfl, rfl⟩, ⟨_, rfl, rfl⟩, ⟨_, rfl, rfl⟩, ⟨_, rfl, rfl⟩, _, rfl, rfl⟩

/-- A decoder in the middle of VB5, and at its end. -/
theorem decoding_inv :
    (let s := decoding [0x61, 0x62, 0x80, 0x15] 2 [0x61, 0x62] (some 10)
     DecInv s.params s.dec ∧ s.dec.port.status = .run ∧ s.schedule = [] ∧ s.dec.i < s.dec.inLen) ∧
    (let s := decoding [0x61] 1 [0x61] none
     DecInv s.params s.dec) :=
  ⟨⟨⟨by decide, by decide, by decide, by decide, by decide, by decide, by decide, by decide,
    by decide⟩, by decide⟩, by decide, by decide, by decide, by decide, by decide, by decide,
    by decide, by decide, by decide⟩

/-- An encoder in the middle of a call. -/
theorem encoding_inv :
    let s := encoding [0x41, 0x80] 1 [0x41] (some 3)
    EncInv s.params s.enc :=
  ⟨by decide, by decide, by decide, by decide, by decide, by decide, by decide, by decide, by decide,
    by decide⟩

theorem witness_TokenStepsConsumeStream :
    let s := decoding [0x61, 0x62, 0x80, 0x15] 2 [0x61, 0x62] (some 10)
    DecInv s.params s.dec ∧ s.dec.port.status = .run ∧ s.schedule = [] ∧ s.dec.i < s.dec.inLen :=
  decoding_inv.1

theorem witness_DecoderCallEnds :
    let s := decoding [0x61, 0x62, 0x80, 0x15] 2 [0x61, 0x62] (some 10)
    DecInv s.params s.dec ∧ s.dec.port.status = .run ∧ s.schedule = [] :=
  ⟨decoding_inv.1.1, rfl, rfl⟩

theorem witness_InputsAreImmutable :
    ∃ t, step (decoding [0xC2] 0 [] none) = .next t ∧
      (∀ block buffer rest, (decoding [0xC2] 0 [] none).schedule ≠ .start block buffer :: rest) ∧
      ∀ block rest, (decoding [0xC2] 0 [] none).schedule ≠ .reset block :: rest :=
  ⟨_, rfl, nofun, nofun⟩

/-- A step that appends, with a byte already below `o`; and one of the encoder. -/
theorem witness_OutputsAreAppendOnly :
    (∃ t, step (decoding [0x41, 0xC2] 1 [0x41] none) = .next t ∧ t.dec.o = 3) ∧
      (∃ t, step (encoding [0x41, 0x80] 1 [0x41] none) = .next t ∧ t.enc.e = 3) ∧
      (∀ block buffer rest, (decoding [0x41, 0xC2] 1 [0x41] none).schedule ≠ .start block buffer :: rest) ∧
      ∀ block rest, (encoding [0x41, 0x80] 1 [0x41] none).schedule ≠ .reset block :: rest :=
  ⟨⟨_, rfl, rfl⟩, ⟨_, rfl, rfl⟩, nofun, nofun⟩

theorem witness_ParametersAreFixed :
    ∃ t, step (commanded (.start .decoder [0x41]) []) = .next t ∧ t.dec.port.status = .run :=
  ⟨_, rfl, rfl⟩

theorem witness_StepKeepsDecoderInvariants :
    let s := decoding [0x61, 0x62, 0x80, 0x15] 2 [0x61, 0x62] (some 10)
    DecInv s.params s.dec ∧ ∃ t, step s = .next t ∧ t.dec.o = 10 :=
  ⟨decoding_inv.1.1, _, rfl, rfl⟩

theorem witness_StepKeepsEncoderInvariants :
    let s := encoding [0x41, 0x80] 1 [0x41] (some 3)
    EncInv s.params s.enc ∧ ∃ t, step s = .next t ∧ t.enc.e = 3 :=
  ⟨encoding_inv, _, rfl, rfl⟩

theorem witness_StepKeepsTheRoundTrip :
    let s := encoding [0x41, 0x80] 1 [0x41] (some 3)
    EncInv s.params s.enc ∧ RoundTrip s.enc ∧ ∃ t, step s = .next t ∧ t.enc.e = 3 :=
  ⟨encoding_inv, rfl, _, rfl, rfl⟩

theorem witness_StepKeepsMemoriesCanonical :
    let s := decoding [0x41, 0xC2] 1 [0x41] none
    (Memory.wf s.dec.input ∧ Memory.wf s.dec.out ∧ Memory.wf s.enc.raw ∧ Memory.wf s.enc.code) ∧
      ∃ t, step s = .next t ∧ t.dec.o = 3 :=
  ⟨by decide, _, rfl, rfl⟩

/-- A good state with both blocks in the middle of a call. -/
theorem witness_GoodStatesAlwaysStep :
    let s := { decoding [0x61] 1 [0x61] none with enc := (encoding [0x41, 0x80] 1 [0x41] none).enc }
    s.Inv :=
  ⟨decoding_inv.2, by decide, by decide, by decide, by decide, by decide, by decide, by decide,
    by decide, by decide, by decide⟩

/-- Two machines that differ in the encoder, and two that differ in the decoder. -/
theorem witness_BlocksShareNothing :
    (let s := decoding [0xC2] 0 [] none
     let s' := { s with enc := (encoding [0x41] 0 [] none).enc }
     s.params = s'.params ∧ s.schedule = s'.schedule ∧ s.dec = s'.dec ∧ s.enc ≠ s'.enc) ∧
    (∃ t, step (decoding [0xC2] 0 [] none) = .next t) ∧
    (∃ t, step { decoding [0xC2] 0 [] none with enc := (encoding [0x41] 0 [] none).enc } = .next t) ∧
    (let s := { encoding [0x41] 0 [] none with schedule := [.encoder] }
     let s' := { s with dec := (decoding [0xC2] 0 [] none).dec }
     s.schedule ≠ [] ∧ s.enc = s'.enc ∧ s.dec ≠ s'.dec ∧ (∃ t, step s = .next t) ∧
       ∃ t, step s' = .next t) :=
  ⟨by decide, ⟨_, rfl⟩, ⟨_, rfl⟩, by decide, rfl, by decide, ⟨_, rfl⟩, _, rfl⟩

/-- At IN_CAP and with finite parameters. -/
theorem witness_DecoderComputesDecode :
    let s := commanded (.start .decoder [0x41, 0xC2]) []
    s.schedule = [.start .decoder [0x41, 0xC2]] ∧ s.dec.port.status ≠ .run ∧
      launchOk s.params s.params.outCap 2 = true := by decide

/-- Beside a running decoder, with an event left over; and with no event after START. -/
theorem witness_EncoderComputesEncode :
    (let s := { decoding [0x61, 0x62] 1 [0x61] none with
       schedule := [.start .encoder [0x20, 0x41], .encoder, .encoder, .encoder, .decoder] }
     s.enc.port.status ≠ .run ∧ launchOk s.params s.params.codeCap 2 = true ∧
       s.dec.port.status = .run ∧ s.schedule =
         .start .encoder [0x20, 0x41] :: (List.replicate 3 .encoder ++ [.decoder])) ∧
    (let s := commanded (.start .encoder [0x20, 0x41]) []
     s.schedule = [.start .encoder [0x20, 0x41]] ∧ s.dec.port.status ≠ .run ∧
       s.enc.port.status ≠ .run ∧ launchOk s.params s.params.codeCap 2 = true) := by decide

/-- A policy that finds one overlapping match: length 3 at distance 1 in `41 41 41 41`. -/
def overlapping : MatchPolicy := fun raw rawLen i =>
  if raw = Memory.ofBytes [0x41, 0x41, 0x41, 0x41] ∧ rawLen = 4 ∧ i = 1 then some (0, 3) else none

theorem witness_EveryConformingEncoderRoundTrips : PolicyContract overlapping := by
  intro raw rawLen i j L _ h
  simp only [overlapping] at h
  split at h
  · rename_i hc
    obtain ⟨rfl, rfl, rfl⟩ := hc
    cases h
    refine ⟨by decide, by decide, by decide, by decide, by decide, ?_⟩
    decide
  · cases h

theorem witness_EncodingAtMostDoubles : fits (some 2) (2 * [(0x80 : Byte)].length) = true := by decide

theorem witness_DecodingAtMostQuintuples :
    fits (some 10) (5 * [(0x41 : Byte), 0x80].length) = true := by decide

/-- VE6: a space that no pair character follows. -/
theorem witness_PlainTextPassesThrough :
    (∀ b ∈ [(0x20 : Byte), 0x3F], plain b = true) ∧
      (∀ k b, [(0x20 : Byte), 0x3F][k]? = some 0x20#8 → [(0x20 : Byte), 0x3F][k + 1]? = some b →
        pairchar b = false) ∧
      ∀ i, i < [(0x20 : Byte), 0x3F].length →
        refMatch (Memory.ofBytes [0x20, 0x3F]) [(0x20 : Byte), 0x3F].length i = none := by
  refine ⟨by decide, fun k b h1 h2 => ?_, by decide⟩
  match k with
  | 0 => cases h2; rfl
  | 1 => cases h1
  | k + 2 => cases h1

theorem witness_EmittedTokensStayInRange :
    [(0x80 : Byte)][0]? = some 0x80 ∧ [(0x20 : Byte), 0x41][0]? = some 0x20 ∧ s6[20]? = some 0x30 := by
  decide

/-- With and without a match, at the margin itself. -/
theorem witness_RefMatchIsLongestThenNearest :
    Buffer (Memory.ofBytes s6) 30 ∧ refMatch (Memory.ofBytes s6) 30 20 = some (0, 10) ∧
      refMatch (Memory.ofBytes s6) 30 21 = none ∧ refMatch (Memory.ofBytes s6) 30 10 = none := by
  decide

theorem witness_RefMatchMeetsTheContract :
    refMatch (Memory.ofBytes s6) 30 13 = some (10, 3) := by decide

/-- The margin at both its ends. -/
theorem witness_SearchMicroStepsReachRefMatch :
    Buffer (Memory.ofBytes s6) 30 ∧ 10 ≤ 10 ∧ 10 ≤ 30 - 10 ∧ 10 ≤ 20 ∧ 10 ≤ 30 - 20 := by decide

theorem witness_EncoderMovesWhenScheduled :
    ({ encoding [0x41] 0 [] none with schedule := [.encoder] } : State).schedule = [.encoder] ∧
      (encoding [0x41] 0 [] none).schedule = [] ∧
      (encoding [0x41] 0 [] none).dec.port.status ≠ .run := by decide

/-- S6 at its longest and at its shortest match; room for exactly two bytes, and for one only. -/
theorem witness_EmitBrefAppendsTheReference :
    (let s := encoding s6 20 [] (some 2)
     EncInv s.params s.enc ∧ s.enc.port.status = .run ∧
       refMatch s.enc.raw s.enc.rawLen s.enc.i = some (0, 10) ∧
       fits s.params.codeCap (s.enc.e + 2) = true) ∧
    (let s := encoding s6 13 [] (some 1)
     EncInv s.params s.enc ∧ refMatch s.enc.raw s.enc.rawLen s.enc.i = some (10, 3) ∧
       fits s.params.codeCap (s.enc.e + 2) = false) :=
  ⟨⟨⟨by decide, by decide, by decide, by decide, by decide, by decide, by decide, by decide,
    by decide, by decide⟩, by decide, by decide, by decide⟩, ⟨by decide, by decide, by decide,
    by decide, by decide, by decide, by decide, by decide, by decide, by decide⟩, by decide, by decide⟩

/-- VE4 and VE5: both ends of the range of pair characters; room for the byte, and none. -/
theorem witness_EmitSpairAppendsThePair :
    (let s := encoding [0x20, 0x40] 0 [] (some 1)
     s.enc.port.status = .run ∧ refMatch s.enc.raw s.enc.rawLen s.enc.i = none ∧
       s.enc.i + 1 < s.enc.rawLen ∧ Memory.read s.enc.raw s.enc.i = some 0x20 ∧
       Memory.read s.enc.raw (s.enc.i + 1) = some 0x40 ∧ pairchar 0x40 = true ∧
       fits s.params.codeCap (s.enc.e + 1) = true) ∧
    (let s := encoding [0x20, 0x7F] 0 [] (some 0)
     Memory.read s.enc.raw (s.enc.i + 1) = some 0x7F ∧ pairchar 0x7F = true ∧
       fits s.params.codeCap (s.enc.e + 1) = false) := by decide

/-- A byte that is no space; a last space (VE7); a space before 0x3F (VE6), with no room. -/
theorem witness_EmitLitAppendsTheByte :
    (let s := encoding [0x00] 0 [] (some 1)
     s.enc.port.status = .run ∧ refMatch s.enc.raw s.enc.rawLen s.enc.i = none ∧
       s.enc.i < s.enc.rawLen ∧ Memory.read s.enc.raw s.enc.i = some 0x00 ∧ plain 0x00 = true ∧
       (0x00 : Byte) ≠ 0x20 ∧ fits s.params.codeCap (s.enc.e + 1) = true) ∧
    (let s := encoding [0x20] 0 [] none
     Memory.read s.enc.raw s.enc.i = some 0x20 ∧ ¬ s.enc.i + 1 < s.enc.rawLen) ∧
    (let s := encoding [0x20, 0x3F] 0 [] (some 0)
     Memory.read s.enc.raw (s.enc.i + 1) = some 0x3F ∧ pairchar 0x3F = false ∧
       fits s.params.codeCap (s.enc.e + 1) = false) := by decide

/-- A run that ends at a plain byte, one that ends the buffer, one of 8 with a byte of room too few. -/
theorem witness_EmitRunAppendsTheRun :
    (let s := encoding [0x80, 0x81, 0x41, 0x82] 0 [] (some 3)
     EncInv s.params s.enc ∧ s.enc.port.status = .run ∧
       refMatch s.enc.raw s.enc.rawLen s.enc.i = none ∧ HoldsAt s.enc.raw s.enc.i [0x80, 0x81] ∧
       s.enc.i + 2 ≤ s.enc.rawLen ∧ (∀ b ∈ [(0x80 : Byte), 0x81], plain b = false) ∧
       Memory.read s.enc.raw (s.enc.i + 2) = some 0x41 ∧ plain 0x41 = true ∧
       fits s.params.codeCap (s.enc.e + 1 + 2) = true) ∧
    (let s := encoding [0x01] 0 [] none
     HoldsAt s.enc.raw s.enc.i [0x01] ∧ s.enc.i + 1 = s.enc.rawLen) ∧
    (let s := encoding (List.replicate 9 0xFF) 0 [] (some 8)
     HoldsAt s.enc.raw s.enc.i (List.replicate 8 0xFF) ∧ s.enc.i + 8 ≤ s.enc.rawLen ∧
       fits s.params.codeCap (s.enc.e + 1 + 8) = false) :=
  ⟨⟨⟨by decide, by decide, by decide, by decide, by decide, by decide, by decide, by decide,
    by decide, by decide⟩, by decide, by decide, by unfold HoldsAt; decide, by decide, by decide,
    by decide, by decide, by decide⟩, by unfold HoldsAt; decide, by unfold HoldsAt; decide⟩

/-- VE10 with one byte of room: its token has two. -/
theorem witness_EncoderRaisesWhenFull :
    let s := encoding [0x80] 0 [] (some 1)
    EncInv s.params s.enc ∧ s.enc.port.status = .run ∧ s.enc.i < s.enc.rawLen ∧
      Memory.read s.enc.raw s.enc.i = some 0x80 ∧
      fits s.params.codeCap
        (s.enc.e + (emittedToken refMatch (Memory.bytes s.enc.raw) s.enc.i 0x80).1.length) = false :=
  ⟨⟨by decide, by decide, by decide, by decide, by decide, by decide, by decide, by decide,
    by decide, by decide⟩, by decide, by decide, by decide, by decide⟩

theorem witness_EncoderRunEndsDone :
    let s := encoding [0x41] 1 [0x41] none
    s.enc.port.status = .run ∧ s.enc.rawLen ≤ s.enc.i := by decide

theorem witness_EncoderNeverCorrupt :
    (encoding [0x41] 0 [] (some 0)).enc.port.err ≠ .corruptStream ∧
      ∃ t, step (encoding [0x41] 0 [] (some 0)) = .next t ∧ t.enc.port.err = .outOfMemory :=
  ⟨by decide, _, rfl, rfl⟩

/-- One port for each status; and blocks in IDLE, RUN, DONE and ERR. -/
theorem witness_HostRegistersRead :
    ((⟨.idle, .none, ⟨.none, 0, 0, 0⟩⟩ : Port).status = .idle ∧
      (⟨.run, .none, ⟨.none, 0, 0, 0⟩⟩ : Port).status = .run ∧
      (⟨.done, .none, ⟨.none, 0, 0, 0⟩⟩ : Port).status = .done ∧
      (⟨.err, .outOfMemory, ⟨.none, 0, 0, 0⟩⟩ : Port).status = .err) ∧
    ((encoding [0x41] 0 [] none).dec.port.status = .idle ∧
      (decoding [0x41] 1 [0x41] none).dec.port.status = .run ∧
      (decoding [0x41] 1 [0x41] none).dec.finish.port.status = .done ∧
      ((decoding [0x41] 0 [] none).dec.raiseMemory 0).port.status = .err) ∧
    ((decoding [0x41] 0 [] none).enc.port.status = .idle ∧
      (encoding [0x41] 1 [0x41] none).enc.port.status = .run ∧
      (encoding [0x41] 1 [0x41] none).enc.finish.port.status = .done ∧
      ((encoding [0x41] 0 [] none).enc.raiseMemory 0x41).port.status = .err) := by decide

/-- Both blocks in DONE, in a good state; and both in another status (they run). -/
theorem witness_ResultReadsBack :
    (let s := { decoding [0x61] 1 [0x61] none with
       dec := (decoding [0x61] 1 [0x61] none).dec.finish
       enc := (encoding [0x41] 1 [0x41] none).enc.finish }
     s.Inv ∧ s.dec.port.status = .done ∧ s.enc.port.status = .done) ∧
    (let s := { decoding [0x61] 1 [0x61] none with enc := (encoding [0x41, 0x80] 1 [0x41] none).enc }
     s.Inv ∧ s.dec.port.status ≠ .done ∧ s.enc.port.status ≠ .done) :=
  ⟨⟨⟨⟨by decide, by decide, by decide, by decide, by decide, by decide, by decide, by decide,
    by decide⟩, by decide, by decide, by decide, by decide, by decide, by decide, by decide, by decide,
    by decide, by decide⟩, by decide⟩, witness_GoodStatesAlwaysStep, by decide⟩

end Sys2Proof.Tests
end

section
/-! SUPPORT. Each block's part of a machine step as a function of the parameters, the event and that
block alone (R2, R46, R144), and the ties of these functions to `step`. -/

namespace Sys2Proof.Machine

open Sys2Proof

/-! ### The decoder alone -/

/-- The body of a token's meaning (R75 to R78). -/
def Decoder.tokenBody (p : Config.Params) (i : Instr) (d : Decoder) : Except Fault Decoder :=
  match i with
  | .lit b => d.litBody p b
  | .run payload => d.runBody p payload
  | .bref distance lm3 => d.brefBody p distance lm3
  | .spair q => d.spairBody p q

theorem exec_eq_tokenBody (i : Instr) (s : State) :
    exec i s = s.answerDecoder (s.dec.tokenBody s.params i) := by
  cases i <;> rfl

/-- What the fetched bytes do to the decoder (R66, R74). -/
def Decoder.fetchedBody (p : Config.Params) (bytes : List Byte) (d : Decoder) :
    Except Fault Decoder :=
  match decode bytes with
  | .ok (i, _) => d.tokenBody p i
  | .error (.truncRun c) => .ok (d.raiseTruncated .truncRun c)
  | .error (.truncBref c) => .ok (d.raiseTruncated .truncBref c)
  | .error .empty => .error (.noByte .input d.i)

theorem runFetched_eq_fetchedBody (bytes : List Byte) (s : State) :
    runFetched bytes s = s.answerDecoder (s.dec.fetchedBody s.params bytes) := by
  unfold runFetched Decoder.fetchedBody
  rcases decode bytes with (_ | c | c) | ⟨i, rest⟩
  · rfl
  · rfl
  · rfl
  · exact exec_eq_tokenBody i s

/-- A step of the decoder (R74, R80, R145). -/
def Decoder.stepBody (p : Config.Params) (d : Decoder) : Except Fault Decoder :=
  if d.port.status = .run then
    if d.inLen ≤ d.i then .ok d.finish
    else (d.fetch.bind fun bytes => d.fetchedBody p bytes).map Decoder.release
  else .ok d

theorem Decoder.stepBody_of_not_run {p : Config.Params} {d : Decoder}
    (h : d.port.status ≠ .run) : d.stepBody p = .ok d := if_neg h

/-- A token step's answer is the body's, its latches released. -/
theorem State.answerDecoder_next {s t : State} {x : Except Fault Decoder}
    (h : s.answerDecoder x = .next t) :
    ∃ d', t = { s with dec := d' } ∧ x.map Decoder.release = .ok d' := by
  cases x with
  | error f => cases h
  | ok d => cases h; exact ⟨_, rfl, rfl⟩

/-- A decoder step writes the decoder only, with what `stepBody` answers. -/
theorem decoderStep_eq_stepBody {s t : State} (h : decoderStep s = .next t) :
    ∃ d', t = { s with dec := d' } ∧ s.dec.stepBody s.params = .ok d' := by
  unfold decoderStep at h
  unfold Decoder.stepBody
  split at h
  · rename_i hrun
    rw [if_pos hrun]
    split at h
    · rename_i hend
      cases h
      exact ⟨_, rfl, if_pos hend⟩
    · rename_i hend
      rw [if_neg hend]
      split at h
      · rename_i bytes hfetch
        rw [runFetched_eq_fetchedBody] at h
        rw [hfetch]
        exact State.answerDecoder_next h
      · cases h
  · rename_i hrun
    cases h
    exact ⟨_, rfl, if_neg hrun⟩

/-- What an event does to the decoder. -/
def Decoder.onEvent (p : Config.Params) (ev : Event) (d : Decoder) : Except Fault Decoder :=
  match ev with
  | .start .decoder buffer => .ok (d.start p buffer)
  | .reset .decoder => .ok d.resetCmd
  | .decoder => d.stepBody p
  | .start .encoder _ | .reset .encoder | .encoder => .ok d

/-! ### The encoder alone -/

/-- A step of the encoder (R98, R110, R145). -/
def Encoder.stepBody (p : Config.Params) (en : Encoder) : Except Fault Encoder :=
  if en.port.status = .run then en.stepWith refMatch p else .ok en

/-- An encoder step writes the encoder only, with what `stepBody` answers. -/
theorem encoderStep_eq_stepBody {s t : State} (h : encoderStep s = .next t) :
    ∃ en', t = { s with enc := en' } ∧ s.enc.stepBody s.params = .ok en' := by
  rcases encoderStep_cases h with ⟨hrun, rfl⟩ | ⟨hrun, en', rfl, hstep⟩
  · exact ⟨_, rfl, if_neg hrun⟩
  · exact ⟨en', rfl, (if_pos hrun).trans hstep⟩

/-- What an event does to the encoder. -/
def Encoder.onEvent (p : Config.Params) (ev : Event) (en : Encoder) : Except Fault Encoder :=
  match ev with
  | .start .encoder buffer => .ok (en.start p buffer)
  | .reset .encoder => .ok en.resetCmd
  | .encoder => en.stepBody p
  | .start .decoder _ | .reset .decoder | .decoder => .ok en

/-! ### The host commands -/

@[simp] theorem hostStart_params (block : BlockId) (buffer : List Byte) (s : State) :
    (hostStart block buffer s).params = s.params := by cases block <;> rfl

@[simp] theorem hostReset_params (block : BlockId) (s : State) :
    (hostReset block s).params = s.params := by cases block <;> rfl

theorem hostStart_dec (block : BlockId) (buffer : List Byte) (s : State) :
    s.dec.onEvent s.params (.start block buffer) = .ok (hostStart block buffer s).dec := by
  cases block <;> rfl

theorem hostStart_enc (block : BlockId) (buffer : List Byte) (s : State) :
    s.enc.onEvent s.params (.start block buffer) = .ok (hostStart block buffer s).enc := by
  cases block <;> rfl

theorem hostReset_dec (block : BlockId) (s : State) :
    s.dec.onEvent s.params (.reset block) = .ok (hostReset block s).dec := by
  cases block <;> rfl

theorem hostReset_enc (block : BlockId) (s : State) :
    s.enc.onEvent s.params (.reset block) = .ok (hostReset block s).enc := by
  cases block <;> rfl

/-! ### The machine's step, block by block -/

/-- No step of the machine writes the parameters (R10, R13). -/
theorem step_params {s t : State} (h : step s = .next t) : t.params = s.params := by
  rcases step_cases h with ⟨block, buffer, rest, -, rfl⟩ | ⟨block, rest, -, rfl⟩ |
    ⟨rest, -, hd⟩ | ⟨rest, -, he⟩
  · exact hostStart_params block buffer _
  · exact hostReset_params block _
  · obtain ⟨d', rfl, -⟩ := decoderStep_eq_stepBody hd
    rfl
  · obtain ⟨en', rfl, -⟩ := encoderStep_eq_stepBody he
    rfl

/-- The decoder after a step is what the next event makes of it. No event to come counts as the
decoder's own: a running decoder moves first (log entry 3), and its step leaves a stopped one alone. -/
theorem step_dec {s t : State} (h : step s = .next t) :
    s.dec.onEvent s.params (s.schedule.headD .decoder) = .ok t.dec := by
  rcases step_cases h with ⟨block, buffer, rest, hs, rfl⟩ | ⟨block, rest, hs, rfl⟩ |
    ⟨rest, hs, hd⟩ | ⟨rest, hs, he⟩
  · rw [hs]
    exact hostStart_dec block buffer { s with schedule := rest }
  · rw [hs]
    exact hostReset_dec block { s with schedule := rest }
  · obtain ⟨d', rfl, hbody⟩ := decoderStep_eq_stepBody hd
    rcases hs with hs | ⟨hs, -, -⟩ <;> (rw [hs]; exact hbody)
  · obtain ⟨en', rfl, -⟩ := encoderStep_eq_stepBody he
    rcases hs with hs | ⟨hs, -, hstop⟩ <;> rw [hs]
    · rfl
    · exact Decoder.stepBody_of_not_run hstop

/-- The encoder after a scheduled step is what the event makes of it. -/
theorem step_enc {s t : State} {ev : Event} {rest : List Event} (hs : s.schedule = ev :: rest)
    (h : step s = .next t) : s.enc.onEvent s.params ev = .ok t.enc := by
  rcases step_cases h with ⟨block, buffer, rest', hs', rfl⟩ | ⟨block, rest', hs', rfl⟩ |
    ⟨rest', hs' | ⟨hnil, -⟩, hd⟩ | ⟨rest', hs' | ⟨hnil, -⟩, he⟩
  · obtain ⟨rfl, -⟩ := List.cons.inj (hs.symm.trans hs')
    exact hostStart_enc block buffer { s with schedule := rest' }
  · obtain ⟨rfl, -⟩ := List.cons.inj (hs.symm.trans hs')
    exact hostReset_enc block { s with schedule := rest' }
  · obtain ⟨rfl, -⟩ := List.cons.inj (hs.symm.trans hs')
    obtain ⟨d', rfl, -⟩ := decoderStep_eq_stepBody hd
    rfl
  · cases hs.symm.trans hnil
  · obtain ⟨rfl, -⟩ := List.cons.inj (hs.symm.trans hs')
    obtain ⟨en', rfl, hbody⟩ := encoderStep_eq_stepBody he
    exact hbody
  · cases hs.symm.trans hnil

end Sys2Proof.Machine
end

section
/-! PROOFS. The scope of the model: the parameters stand still and the blocks share nothing. -/

namespace Sys2Proof.Machine

open Sys2Proof

/-- Settles O32: each of the four kinds of step leaves the parameters alone. -/
theorem parametersAreFixed : Obligations.ParametersAreFixed :=
  fun _ _ h => step_params h

/-- Settles O39: each block's next state is a function of the parameters, the next event and that
block alone. -/
theorem blocksShareNothing : Obligations.BlocksShareNothing := by
  intro s s' t t' hp hs h h'
  refine ⟨fun hdec => ?_, fun hne henc => ?_⟩
  · have hd := step_dec h
    rw [hdec, hp, hs] at hd
    exact Except.ok.inj (hd.symm.trans (step_dec h'))
  · obtain ⟨ev, rest, hev⟩ := List.exists_cons_of_ne_nil hne
    have he := step_enc hev h
    rw [henc, hp] at he
    exact Except.ok.inj (he.symm.trans (step_enc (hs.symm.trans hev) h'))

end Sys2Proof.Machine
end

section
/-! SUPPORT. What the two host commands make of a block (R25, R26), and the transitions of each block:
what one step of the machine can make of it, said once. -/

namespace Sys2Proof.Machine

open Sys2Proof

/-! ### The launch premise -/

theorem fits_eq_false_iff {cap : Option Nat} {n : Nat} :
    fits cap n = false ↔ ∃ k, cap = some k ∧ k < n := by
  cases cap <;> simp

theorem fitsWidth_eq_false_iff {addrW size : Option Nat} :
    fitsWidth addrW size = false ↔ ∃ w, addrW = some w ∧ ∀ k, size = some k → 2 ^ w ≤ k := by
  cases addrW <;> cases size <;> simp [fitsWidth]

theorem launchOk_eq_true_iff {p : Config.Params} {cap : Option Nat} {len : Nat} :
    launchOk p cap len = true ↔
      fits p.inCap len = true ∧ fitsWidth p.addrW (some len) = true ∧
        fitsWidth p.addrW cap = true := by
  simp [launchOk, and_assoc]

theorem launchOk_eq_false_iff {p : Config.Params} {cap : Option Nat} {len : Nat} :
    launchOk p cap len = false ↔
      (∃ k, p.inCap = some k ∧ k < len) ∨
        ∃ w, p.addrW = some w ∧ (2 ^ w ≤ len ∨ ∀ k, cap = some k → 2 ^ w ≤ k) := by
  simp only [launchOk, Bool.and_eq_false_iff, fits_eq_false_iff, fitsWidth_eq_false_iff]
  simp [and_or_left, exists_or, or_assoc]

/-! ### START -/

/-- The decoder at the start of a call (R25, R33); `n` numbers its free values. -/
def Decoder.launched (buffer : List Byte) (n : Nat) : Decoder where
  input := Memory.ofBytes buffer
  inLen := buffer.length
  i     := 0
  out   := []
  o     := 0
  port  := ⟨.run, .none, Config.freeDecErrInfo n⟩
  latch := Config.freeDecLatches n
  draws := n + 1

/-- The encoder at the start of a call (R25, R33); `n` numbers its free values. -/
def Encoder.launched (buffer : List Byte) (n : Nat) : Encoder where
  raw    := Memory.ofBytes buffer
  rawLen := buffer.length
  i      := 0
  code   := []
  e      := 0
  port   := ⟨.run, .none, Config.freeEncErrInfo n⟩
  latch  := Config.freeEncLatches n
  draws  := n + 1

section Start

variable {p : Config.Params} {buffer : List Byte} {d : Decoder} {en : Encoder}

theorem Decoder.start_of_run (h : d.port.status = .run) : d.start p buffer = d := if_pos h

theorem Encoder.start_of_run (h : en.port.status = .run) : en.start p buffer = en := if_pos h

theorem Decoder.start_of_refused (h : launchOk p p.outCap buffer.length = false) :
    d.start p buffer = d := by
  simp [Decoder.start, h]

theorem Encoder.start_of_refused (h : launchOk p p.codeCap buffer.length = false) :
    en.start p buffer = en := by
  simp [Encoder.start, h]

theorem Decoder.start_of_launchOk (hs : d.port.status ≠ .run)
    (h : launchOk p p.outCap buffer.length = true) :
    d.start p buffer = .launched buffer d.draws := by
  simp [Decoder.start, hs, h, Decoder.launched]

theorem Encoder.start_of_launchOk (hs : en.port.status ≠ .run)
    (h : launchOk p p.codeCap buffer.length = true) :
    en.start p buffer = .launched buffer en.draws := by
  simp [Encoder.start, hs, h, Encoder.launched]

/-- START leaves the decoder, or launches a call. -/
theorem Decoder.start_cases (p : Config.Params) (buffer : List Byte) (d : Decoder) :
    d.start p buffer = d ∨
      (launchOk p p.outCap buffer.length = true ∧ d.start p buffer = .launched buffer d.draws) := by
  by_cases hs : d.port.status = .run
  · exact .inl (Decoder.start_of_run hs)
  · cases h : launchOk p p.outCap buffer.length with
    | false => exact .inl (Decoder.start_of_refused h)
    | true => exact .inr ⟨rfl, Decoder.start_of_launchOk hs h⟩

/-- START leaves the encoder, or launches a call. -/
theorem Encoder.start_cases (p : Config.Params) (buffer : List Byte) (en : Encoder) :
    en.start p buffer = en ∨
      (launchOk p p.codeCap buffer.length = true ∧
        en.start p buffer = .launched buffer en.draws) := by
  by_cases hs : en.port.status = .run
  · exact .inl (Encoder.start_of_run hs)
  · cases h : launchOk p p.codeCap buffer.length with
    | false => exact .inl (Encoder.start_of_refused h)
    | true => exact .inr ⟨rfl, Encoder.start_of_launchOk hs h⟩

end Start

/-! ### A scheduled step -/

/-- With an event to come the step is that event's. -/
theorem step_of_schedule {s : State} {ev : Event} {rest : List Event}
    (h : s.schedule = ev :: rest) : step s = runEvent ev { s with schedule := rest } := by
  simp [step, machineStep, h]

/-- START to a decoder that it leaves alone only spends the event. -/
theorem step_start_decoder_of_kept {s : State} {buffer : List Byte} {rest : List Event}
    (h : s.schedule = .start .decoder buffer :: rest)
    (hkept : s.dec.start s.params buffer = s.dec) :
    step s = .next { s with schedule := rest } := by
  simp [step_of_schedule h, runEvent, hostStart, hkept]

/-- START to an encoder that it leaves alone only spends the event. -/
theorem step_start_encoder_of_kept {s : State} {buffer : List Byte} {rest : List Event}
    (h : s.schedule = .start .encoder buffer :: rest)
    (hkept : s.enc.start s.params buffer = s.enc) :
    step s = .next { s with schedule := rest } := by
  simp [step_of_schedule h, runEvent, hostStart, hkept]

/-! ### The transitions of a block -/

/-- What a running decoder's own step makes of it: the end of the run (R80), a token's appends, or an
error. -/
def Decoder.Stepped (p : Config.Params) (d d' : Decoder) : Prop :=
  (d.inLen ≤ d.i ∧ d' = d.finish) ∨
    (d.i < d.inLen ∧
      ((∃ len bs, 1 ≤ len ∧ bs.length ≤ 5 * len ∧ d.Moved p len bs d') ∨ ∃ k, d.Raised k d'))

/-- What a step of the machine at `s` makes of the decoder: nothing (a START that it
ignores or refuses among it), a launched call, RESET, or its own step in RUN. -/
inductive DecoderTransition (s : State) (d' : Decoder) : Prop
  | kept (heq : d' = s.dec)
  | launch (buffer : List Byte) (rest : List Event)
      (hsched : s.schedule = .start .decoder buffer :: rest)
      (hok : launchOk s.params s.params.outCap buffer.length = true)
      (heq : d' = .launched buffer s.dec.draws)
  | reset (rest : List Event) (hsched : s.schedule = .reset .decoder :: rest)
      (heq : d' = s.dec.resetCmd)
  | step (hmoving : movingBlock s = some .decoder) (hrun : s.dec.port.status = .run)
      (hstep : s.dec.Stepped s.params d')

/-- What a step of the machine at `s` makes of the encoder: nothing (a START that it
ignores or refuses among it), a launched call, RESET, or its own step in RUN. -/
inductive EncoderTransition (s : State) (en' : Encoder) : Prop
  | kept (heq : en' = s.enc)
  | launch (buffer : List Byte) (rest : List Event)
      (hsched : s.schedule = .start .encoder buffer :: rest)
      (hok : launchOk s.params s.params.codeCap buffer.length = true)
      (heq : en' = .launched buffer s.enc.draws)
  | reset (rest : List Event) (hsched : s.schedule = .reset .encoder :: rest)
      (heq : en' = s.enc.resetCmd)
  | step (hmoving : movingBlock s = some .encoder) (hrun : s.enc.port.status = .run)
      (hstep : s.enc.stepWith refMatch s.params = .ok en')

/-- A decoder step of the machine changes the decoder alone: not at all, or by its own step. -/
theorem decoderStep_stepped {s t : State} (h : decoderStep s = .next t) :
    t.enc = s.enc ∧ (t.dec = s.dec ∨
      (s.dec.port.status = .run ∧ s.dec.Stepped s.params t.dec)) := by
  rcases decoderStep_cases h with ⟨-, rfl⟩ | ⟨hrun, hend, rfl⟩ | ⟨hrun, hi, d', rfl, hm⟩
  · exact ⟨rfl, .inl rfl⟩
  · exact ⟨rfl, .inr ⟨hrun, .inl ⟨hend, rfl⟩⟩⟩
  · exact ⟨rfl, .inr ⟨hrun, .inr ⟨hi, hm⟩⟩⟩

/-- The next event, or with none the status of the decoder, says whose step is next (log entry 3). -/
theorem movingBlock_decoder {s : State} {rest : List Event}
    (h : s.schedule = .decoder :: rest ∨
      (s.schedule = [] ∧ rest = [] ∧ s.dec.port.status = .run)) :
    movingBlock s = some .decoder := by
  rcases h with h | ⟨h, -, hrun⟩
  · simp [movingBlock, h]
  · simp [movingBlock, h, hrun]

theorem movingBlock_encoder {s : State} {rest : List Event}
    (h : s.schedule = .encoder :: rest ∨
      (s.schedule = [] ∧ rest = [] ∧ s.dec.port.status ≠ .run)) :
    movingBlock s = some .encoder := by
  rcases h with h | ⟨h, -, hstop⟩
  · simp [movingBlock, h]
  · simp [movingBlock, h, hstop]

/-- Every step makes one of the transitions of the decoder. -/
theorem step_decoderTransition {s t : State} (h : step s = .next t) :
    DecoderTransition s t.dec := by
  rcases step_cases h with ⟨block, buffer, rest, hs, rfl⟩ | ⟨block, rest, hs, rfl⟩ |
    ⟨rest, hs, hd⟩ | ⟨rest, hs, he⟩
  · cases block with
    | decoder =>
      rcases s.dec.start_cases s.params buffer with hkept | ⟨hok, hlaunched⟩
      · exact .kept hkept
      · exact .launch buffer rest hs hok hlaunched
    | encoder => exact .kept rfl
  · cases block with
    | decoder => exact .reset rest hs rfl
    | encoder => exact .kept rfl
  · obtain ⟨-, hkept | ⟨hrun, hstep⟩⟩ := decoderStep_stepped hd
    · exact .kept hkept
    · exact .step (movingBlock_decoder hs) hrun hstep
  · obtain ⟨en', rfl, -⟩ := encoderStep_eq_stepBody he
    exact .kept rfl

/-- Every step makes one of the transitions of the encoder. -/
theorem step_encoderTransition {s t : State} (h : step s = .next t) :
    EncoderTransition s t.enc := by
  rcases step_cases h with ⟨block, buffer, rest, hs, rfl⟩ | ⟨block, rest, hs, rfl⟩ |
    ⟨rest, hs, hd⟩ | ⟨rest, hs, he⟩
  · cases block with
    | decoder => exact .kept rfl
    | encoder =>
      rcases s.enc.start_cases s.params buffer with hkept | ⟨hok, hlaunched⟩
      · exact .kept hkept
      · exact .launch buffer rest hs hok hlaunched
  · cases block with
    | decoder => exact .kept rfl
    | encoder => exact .reset rest hs rfl
  · exact .kept (decoderStep_stepped hd).1
  · rcases encoderStep_cases he with ⟨-, rfl⟩ | ⟨hrun, en', rfl, hstep⟩
    · exact .kept rfl
    · exact .step (movingBlock_encoder hs) hrun hstep

/-! ### A step that is no host command -/

section NoCommand

variable {s t : State}

/-- Without a host command the decoder is kept or makes its own step. -/
theorem step_dec_kept_or_stepped (h : step s = .next t)
    (hstart : ∀ block buffer rest, s.schedule ≠ .start block buffer :: rest)
    (hreset : ∀ block rest, s.schedule ≠ .reset block :: rest) :
    t.dec = s.dec ∨ s.dec.Stepped s.params t.dec := by
  cases step_decoderTransition h with
  | kept heq => exact .inl heq
  | launch buffer rest hs => exact absurd hs (hstart _ _ _)
  | reset rest hs => exact absurd hs (hreset _ _)
  | step _ _ hstep => exact .inr hstep

/-- Without a host command the encoder is kept or makes its own step. -/
theorem step_enc_kept_or_stepped (h : step s = .next t)
    (hstart : ∀ block buffer rest, s.schedule ≠ .start block buffer :: rest)
    (hreset : ∀ block rest, s.schedule ≠ .reset block :: rest) :
    t.enc = s.enc ∨ s.enc.stepWith refMatch s.params = .ok t.enc := by
  cases step_encoderTransition h with
  | kept heq => exact .inl heq
  | launch buffer rest hs => exact absurd hs (hstart _ _ _)
  | reset rest hs => exact absurd hs (hreset _ _)
  | step _ _ hstep => exact .inr hstep

end NoCommand

/-! ### What a block's own step keeps -/

section Own

variable {p : Config.Params} {d d' : Decoder} {en en' : Encoder} {policy : MatchPolicy}

/-- The decoder's own step leaves its input (R14). -/
theorem Decoder.Stepped.input_eq (h : d.Stepped p d') :
    d'.input = d.input ∧ d'.inLen = d.inLen := by
  rcases h with ⟨-, rfl⟩ | ⟨-, ⟨len, bs, -, -, r, rfl, -⟩ | ⟨k, err, cause, first, r, -, -, -, rfl⟩⟩ <;>
    exact ⟨rfl, rfl⟩

/-- The encoder's own step leaves its input (R20). -/
theorem Encoder.stepWith_raw_eq (h : en.stepWith policy p = .ok en') :
    en'.raw = en.raw ∧ en'.rawLen = en.rawLen := by
  rcases Encoder.stepWith_cases h with
    ⟨-, rfl⟩ | ⟨-, ⟨token, adv, -, r, n, rfl⟩ | ⟨first, r, n, rfl⟩⟩ <;>
    exact ⟨rfl, rfl⟩

/-- The bytes below an append read as before. -/
theorem read_writeAll_below {m : Memory} {n a : Nat} (bs : List Byte) (h : a < n) :
    Memory.read (writeAll m n bs) a = Memory.read m a :=
  writeAll_other m n bs a (.inl h)

/-- The decoder's own step only appends to OUT (R16). -/
theorem Decoder.Stepped.appends (h : d.Stepped p d') :
    d.o ≤ d'.o ∧ ∀ a, a < d.o → Memory.read d'.out a = Memory.read d.out a := by
  rcases h with ⟨-, rfl⟩ | ⟨-, ⟨len, bs, -, -, r, rfl, -⟩ | ⟨k, err, cause, first, r, -, -, -, rfl⟩⟩
  · exact ⟨le_rfl, fun _ _ => rfl⟩
  · exact ⟨Nat.le_add_right _ _, fun a ha => read_writeAll_below bs ha⟩
  · exact ⟨le_rfl, fun _ _ => rfl⟩

/-- The encoder's own step only appends to CODE (R22). -/
theorem Encoder.stepWith_appends (h : en.stepWith policy p = .ok en') :
    en.e ≤ en'.e ∧ ∀ a, a < en.e → Memory.read en'.code a = Memory.read en.code a := by
  rcases Encoder.stepWith_cases h with
    ⟨-, rfl⟩ | ⟨-, ⟨token, adv, -, r, n, rfl⟩ | ⟨first, r, n, rfl⟩⟩
  · exact ⟨le_rfl, fun _ _ => rfl⟩
  · exact ⟨Nat.le_add_right _ _, fun a ha => read_writeAll_below token ha⟩
  · exact ⟨le_rfl, fun _ _ => rfl⟩

/-- The decoder's own step leaves the status, ends the run, or raises (R18). -/
theorem Decoder.Stepped.status_cases (h : d.Stepped p d') :
    d'.port.status = d.port.status ∨ (d'.port.status = .done ∧ d.inLen ≤ d.i) ∨
      (d'.port.status = .err ∧ d'.port.err ≠ .none) := by
  rcases h with
    ⟨hend, rfl⟩ | ⟨-, ⟨len, bs, -, -, r, rfl, -⟩ | ⟨k, err, cause, first, r, herr, -, -, rfl⟩⟩
  · exact .inr (.inl ⟨rfl, hend⟩)
  · exact .inl rfl
  · exact .inr (.inr ⟨rfl, herr⟩)

/-- The encoder's own step leaves the status, ends the run, or raises OutOfMemory (R24). -/
theorem Encoder.stepWith_status_cases (h : en.stepWith policy p = .ok en') :
    en'.port.status = en.port.status ∨ (en'.port.status = .done ∧ en.rawLen ≤ en.i) ∨
      (en'.port.status = .err ∧ en'.port.err = .outOfMemory) := by
  rcases Encoder.stepWith_cases h with
    ⟨hend, rfl⟩ | ⟨-, ⟨token, adv, -, r, n, rfl⟩ | ⟨first, r, n, rfl⟩⟩
  · exact .inr (.inl ⟨rfl, hend⟩)
  · exact .inl rfl
  · exact .inr (.inr ⟨rfl, rfl⟩)

end Own

end Sys2Proof.Machine
end

section
/-! SUPPORT. What an emitted token stands for (R105, R111 to R115, R118): its size, and that decoding it
after any code gives back its raw bytes. -/

namespace Sys2Proof.Machine

open Sys2Proof

/-! ### Decoding an extended code -/

/-- The loop that decodes `code` whole reaches the end of it in the same state when more follows. -/
theorem decodeLoop_append {cap : Option Nat} {code out out' : List Byte} {fuel i : Nat}
    (ext : List Byte) (hi : i ≤ code.length) (hfuel : code.length < fuel + i)
    (h : decodeLoop cap code fuel i out = .ok out') :
    ∃ k, ∀ extra, decodeLoop cap (code ++ ext) (fuel + extra) i out =
      decodeLoop cap (code ++ ext) (k + extra) code.length out' := by
  induction fuel generalizing i out with
  | zero => omega
  | succ fuel ih =>
    cases hc : code[i]? with
    | none =>
      obtain rfl : i = code.length := by
        have := List.getElem?_eq_none_iff.1 hc
        omega
      simp only [decodeLoop, hc] at h
      cases h
      exact ⟨fuel + 1, fun _ => rfl⟩
    | some c =>
      simp only [decodeLoop, hc] at h
      cases htok : decodeToken cap code i c out with
      | error e => rw [htok] at h; cases h
      | ok next =>
        rw [htok] at h
        obtain ⟨hlt, hle, -⟩ := decodeToken_ok hc htok
        obtain ⟨k, hk⟩ := ih hle (by omega) h
        refine ⟨k, fun extra => ?_⟩
        have hc' : (code ++ ext)[i]? = some c := by
          rw [List.getElem?_append_left (by omega), hc]
        rw [← hk extra, show fuel + 1 + extra = fuel + extra + 1 by omega, decodeLoop, hc']
        simp only [decodeToken_append ext hc htok, Except.bind]

/-- At the end of the stream the loop answers what it has produced, whatever its fuel (R80, R86). -/
theorem decodeLoop_at_end (cap : Option Nat) (code out : List Byte) (fuel : Nat) :
    decodeLoop cap code fuel code.length out = .ok out := by
  cases fuel with
  | zero => rfl
  | succ fuel => simp [decodeLoop]

/-- Decoding a code that one more token follows decodes the code and then the token. -/
theorem decodeFn_append_token {cap : Option Nat} {code bs out out' : List Byte} {b : Byte}
    (hcode : decodeFn cap code = .ok out)
    (htok : decodeToken cap (code ++ b :: bs) code.length b out =
      .ok (code.length + (b :: bs).length, out')) :
    decodeFn cap (code ++ b :: bs) = .ok out' := by
  obtain ⟨k, hk⟩ := decodeLoop_append (b :: bs) (Nat.zero_le _) (by omega) hcode
  have hlen : (code ++ b :: bs).length = code.length + (b :: bs).length := List.length_append
  have hb : (code ++ b :: bs)[code.length]? = some b := by simp
  calc decodeFn cap (code ++ b :: bs)
    _ = decodeLoop cap (code ++ b :: bs) (code.length + 1 + (b :: bs).length) 0 [] := by
      rw [decodeFn, hlen, Nat.add_right_comm]
    _ = decodeLoop cap (code ++ b :: bs) (k + bs.length + 1) code.length out := hk _
    _ = decodeLoop cap (code ++ b :: bs) (k + bs.length) (code ++ b :: bs).length out' := by
      rw [decodeLoop, hb]
      simp only [htok, Except.bind, hlen]
    _ = .ok out' := decodeLoop_at_end ..

/-! ### One token -/

/-- The token bytes `tok.1` stand for the `tok.2` raw bytes at `i`: these lie inside RAW, the token is
at most twice as long (R117), and decoding it gives them back (R118). -/
structure StandsFor (raw : List Byte) (i : Nat) (tok : List Byte × Nat) : Prop where
  inside  : i + tok.2 ≤ raw.length
  ratio   : tok.1.length ≤ 2 * tok.2
  decodes : ∃ b bs, tok.1 = b :: bs ∧ ∀ code, decodeToken none (code ++ b :: bs) code.length b
    (raw.take i) = .ok (code.length + (b :: bs).length, raw.take (i + tok.2))

section Tokens

variable {raw : List Byte} {i : Nat} {c n : Byte}

/-- A plain literal (R113). -/
theorem standsFor_lit (hc : raw[i]? = some c) (hp : plain c = true) :
    StandsFor raw i ([c], 1) := by
  obtain ⟨hlt, -⟩ := List.getElem?_eq_some_iff.1 hc
  refine ⟨hlt, by simp, c, [], rfl, fun code => ?_⟩
  rw [plain_true] at hp
  rw [decodeToken, if_neg (by omega), if_pos (by omega)]
  simp [decodeAppend, List.take_add_one, hc]

/-- A pair character's token byte is a space pair's (R57, R60). -/
theorem flip_of_pairchar (hp : pairchar n = true) : 0xC0 ≤ (n ^^^ 0x80#8).toNat := by
  revert n
  decide

/-- A space pair (R112). -/
theorem standsFor_pair (hc : raw[i]? = some Config.space) (hn : raw[i + 1]? = some n)
    (hp : pairchar n = true) : StandsFor raw i ([n ^^^ 0x80#8], 2) := by
  obtain ⟨hlt, -⟩ := List.getElem?_eq_some_iff.1 hn
  have hflip := flip_of_pairchar hp
  refine ⟨by simp only; omega, by simp, _, [], rfl, fun code => ?_⟩
  rw [decodeToken, if_neg (by omega), if_neg (by omega), if_pos (by omega)]
  simp [decodeAppend, List.take_add_one (i := i + 1), List.take_add_one (i := i), hc, hn,
    show i + 2 = i + 1 + 1 from rfl]

/-- A binary run (R114). -/
theorem standsFor_run (hc : raw[i]? = some c) (hp : plain c = false) :
    StandsFor raw i
      (BitVec.ofNat 8 (runBytes raw i).length :: runBytes raw i, (runBytes raw i).length) := by
  obtain ⟨hlt, -⟩ := List.getElem?_eq_some_iff.1 hc
  obtain ⟨h8, -, hin, htake⟩ := runBytes_spec raw i
  have hpos : 1 ≤ (runBytes raw i).length := by simp [runBytes_cons hc hp]
  have hcount : (BitVec.ofNat 8 (runBytes raw i).length).toNat = (runBytes raw i).length := by
    simp; omega
  have hout : raw.take i ++ runBytes raw i = raw.take (i + (runBytes raw i).length) := by
    rw [List.take_add, ← htake]
  refine ⟨hin hlt.le, by simp; omega, _, _, rfl, fun code => ?_⟩
  rw [decodeToken, hcount, if_pos ⟨hpos, h8⟩, if_neg (by simp; omega)]
  simp [decodeAppend, hout, Nat.add_comm 1]

/-- Copying from `dist` behind gives the raw bytes that repeat at that distance (R90, R118). -/
theorem copyBytes_take {dist : Nat} (k : Nat) (h1 : 1 ≤ dist) (h2 : dist ≤ i)
    (hin : i + k ≤ raw.length) (hrep : ∀ t, t < k → raw[i + t - dist]? = raw[i + t]?) :
    copyBytes dist k (raw.take i) = raw.take (i + k) := by
  induction k generalizing i with
  | zero => rfl
  | succ k ih =>
    have hread : (raw.take i)[(raw.take i).length - dist]? = raw[i]? := by
      rw [List.length_take, Nat.min_eq_left (by omega), List.getElem?_take_of_lt (by omega)]
      exact hrep 0 (by omega)
    rw [copyBytes, hread, ← List.take_add_one, ih (by omega) (by omega), Nat.add_right_comm,
      Nat.add_assoc]
    intro t ht
    have := hrep (t + 1) (by omega)
    rwa [show i + (t + 1) = i + 1 + t by omega] at this

/-- The two bytes of a back-reference as numbers (R105) are those of its packed value (R62). -/
theorem brefBytes_eq {dist len : Nat} (h3 : 3 ≤ len) (h10 : len ≤ 10) (hd : dist ≤ 2047) :
    highByte (packBref (BitVec.ofNat 11 dist) (BitVec.ofNat 3 (len - 3))) =
        BitVec.ofNat 8 (0x80 ||| (dist >>> 5)) ∧
      lowByte (packBref (BitVec.ofNat 11 dist) (BitVec.ofNat 3 (len - 3))) =
        BitVec.ofNat 8 (((dist &&& 0x1F) <<< 3) ||| (len - 3)) := by
  have hhigh : 0x80 ||| (dist >>> 5) = 128 + dist / 32 := by
    have hfield : dist / 2 ^ 5 < 2 ^ 7 := by omega
    exact Nat.shiftRight_eq_div_pow dist 5 ▸ shift_or_eq_add (a := 1) hfield
  have hlow : ((dist &&& 0x1F) <<< 3) ||| (len - 3) = dist % 32 * 8 + (len - 3) := by
    have hmask : dist &&& 0x1F = dist % 32 := Nat.and_two_pow_sub_one_eq_mod dist 5
    rw [hmask, shift_or_eq_add (by omega)]
    rfl
  constructor <;> apply BitVec.eq_of_toNat_eq
  · rw [highByte_toNat, packBref_toNat, hhigh]
    simp only [BitVec.toNat_ofNat]
    omega
  · rw [lowByte_toNat, packBref_toNat, hlow]
    simp only [BitVec.toNat_ofNat]
    omega

/-- A back-reference to bytes that repeat (R105). -/
theorem standsFor_bref {dist len : Nat} (h3 : 3 ≤ len) (h10 : len ≤ 10) (h1 : 1 ≤ dist)
    (hd : dist ≤ 2047) (hi : dist ≤ i) (hin : i + len ≤ raw.length)
    (hrep : ∀ t, t < len → raw[i + t - dist]? = raw[i + t]?) :
    StandsFor raw i ([BitVec.ofNat 8 (0x80 ||| (dist >>> 5)),
      BitVec.ofNat 8 (((dist &&& 0x1F) <<< 3) ||| (len - 3))], len) := by
  obtain ⟨hhigh, hlow⟩ := brefBytes_eq h3 h10 hd
  obtain ⟨h80, hBF⟩ := high_pack (BitVec.ofNat 11 dist) (BitVec.ofNat 3 (len - 3))
  have hdist : (BitVec.ofNat 11 dist).toNat = dist := by simp; omega
  have hlen : lengthOf (BitVec.ofNat 3 (len - 3)) = len := by simp [lengthOf]; omega
  rw [← hhigh, ← hlow]
  refine ⟨hin, by simp; omega, _, _, rfl, fun code => ?_⟩
  rw [decodeToken, if_neg (by omega), if_neg (by omega), if_neg (by omega),
    List.getElem?_append_right (by omega)]
  simp only [Nat.add_sub_cancel_left, List.getElem?_cons_succ, List.getElem?_cons_zero,
    decodeBrefToken, tokenValue_bytes, fieldDistance_pack, fieldLm3_pack, hdist, hlen]
  rw [if_neg (by omega), if_neg (by rw [List.length_take]; omega),
    copyBytes_take len h1 hi hin hrep]
  rfl

/-- The literal family's token (R111). -/
theorem standsFor_literalToken (hc : raw[i]? = some c) :
    StandsFor raw i (literalToken raw i c) := by
  rcases literalToken_cases raw i c with ⟨n, hn, rfl, hp, htok⟩ | ⟨hp, htok, -⟩ | ⟨hp, htok⟩ <;>
    rw [htok]
  · exact standsFor_pair hc hn hp
  · exact standsFor_lit hc hp
  · exact standsFor_run hc hp

/-- The token that one iteration emits, for every policy that meets the contract of R107 (R118). -/
theorem standsFor_emittedToken {policy : MatchPolicy} (hpol : PolicyContract policy)
    (hc : raw[i]? = some c) : StandsFor raw i (emittedToken policy raw i c) := by
  unfold emittedToken
  split
  next j L hm =>
    obtain ⟨h3, h10, hin, hj, hd, hrep⟩ := hpol _ _ _ _ _ (Memory.buffer_ofBytes raw) hm
    simp only [Memory.read_ofBytes] at hrep
    refine standsFor_bref h3 h10 (by omega) hd (Nat.sub_le i j) hin fun t ht => ?_
    rw [← hrep t ht]
    congr 1
    omega
  next => exact standsFor_literalToken hc

end Tokens

/-- The reference policy meets the contract of R107. -/
theorem refMatch_contract : PolicyContract refMatch := by
  intro raw n i j L hb h
  obtain ⟨hi, hn, h3, h10, hjL, hlow⟩ := refMatch_range h
  have hwin : windowEq raw j i L = true := by
    unfold refMatch at h
    split at h
    · obtain ⟨-, -, hscan, -⟩ := searchLengths_some 8 h
      obtain ⟨-, -, hwin, -⟩ := scanBack_some hscan
      exact hwin
    · cases h
  exact ⟨h3, h10, by omega, by omega, by omega,
    (windowEq_iff hb (by omega) (by omega)).1 hwin⟩

end Sys2Proof.Machine
end

section
/-! SUPPORT. What an encoder step does in a good state (R98, R105, R111 to R114): it emits the token of
R124, or raises OutOfMemory when that token does not fit. -/

namespace Sys2Proof.Machine

open Sys2Proof

/-- The encoder after it emitted `tok.1` for `tok.2` raw bytes. -/
def Encoder.afterEmit (tok : List Byte × Nat) (r : EncLatches) (n : Nat) (en : Encoder) : Encoder :=
  { en with
    code := writeAll en.code en.e tok.1, e := en.e + tok.1.length, i := en.i + tok.2
    latch := r, draws := n }

/-- The encoder after it raised OutOfMemory at the raw byte `first`. -/
def Encoder.afterFull (first : Byte) (r : EncLatches) (n : Nat) (en : Encoder) : Encoder :=
  { en with
    port := ⟨.err, .outOfMemory, ⟨.none, en.i, first, en.e⟩⟩, latch := r, draws := n }

/-- The encoder after `tok` at the raw byte `first`: emitted where it fits, else OutOfMemory (R132). -/
def Encoder.afterToken (p : Config.Params) (tok : List Byte × Nat) (first : Byte) (r : EncLatches)
    (n : Nat) (en : Encoder) : Encoder :=
  if fits p.codeCap (en.e + tok.1.length) then en.afterEmit tok r n else en.afterFull first r n

section Emission

variable {p : Config.Params} {en : Encoder} {c : Byte}

/-- Between steps the working registers are free (R23). -/
theorem Encoder.afterToken_release (tok : List Byte × Nat) (r : EncLatches) (n : Nat) :
    (en.afterToken p tok c r n).release =
      en.afterToken p tok c (Config.freeEncLatches n) (n + 1) := by
  unfold Encoder.afterToken
  split <;> rfl

/-- A read of RAW below its length is the byte there. -/
theorem Encoder.rawRead_eq (hb : Buffer en.raw en.rawLen) {a : Nat}
    (hc : (Memory.bytes en.raw)[a]? = some c) : en.rawRead a = .ok c := by
  obtain ⟨hlt, -⟩ := List.getElem?_eq_some_iff.1 hc
  exact readBelow_eq (hb.length_bytes ▸ hlt) (by rw [hb.read_eq, hc])

/-- Emitting a token, whatever the working registers hold. -/
theorem Encoder.emit_eq_afterToken (hb : Buffer en.raw en.rawLen)
    (hc : (Memory.bytes en.raw)[en.i]? = some c) (token : List Byte) (adv : Nat) (r : EncLatches) :
    ({ en with latch := r } : Encoder).emit p token adv =
      .ok (en.afterToken p (token, adv) c r en.draws) := by
  have hread : ({ en with latch := r } : Encoder).rawRead en.i = .ok c := Encoder.rawRead_eq hb hc
  rw [Encoder.emit_eq, hread]
  unfold Encoder.afterToken
  split <;> rfl

/-- `EMIT_BREF` from the registers of a match (R105). -/
theorem Encoder.emitBref_eq (hb : Buffer en.raw en.rawLen)
    (hc : (Memory.bytes en.raw)[en.i]? = some c) {r : EncLatches} {j L : Nat} (hj : r.j = j)
    (hL : r.L = BitVec.ofNat 4 L) (h3 : 3 ≤ L) (h10 : L ≤ 10) (hd : en.i - j ≤ 2047) :
    ({ en with latch := r } : Encoder).emitBref p = .ok (en.afterToken p
      ([BitVec.ofNat 8 (0x80 ||| ((en.i - j) >>> 5)),
        BitVec.ofNat 8 ((((en.i - j) &&& 0x1F) <<< 3) ||| (L - 3))], L) c r en.draws) := by
  have hLn : r.L.toNat = L := by rw [hL]; simp; omega
  obtain ⟨hhigh, hlow⟩ := brefBytes_eq h3 h10 hd
  rw [← Encoder.emit_eq_afterToken hb hc, ← hhigh, ← hlow]
  simp only [Encoder.emitBref, hj, hLn]

/-- The first test of R111. -/
theorem Encoder.pairAhead_eq (hb : Buffer en.raw en.rawLen) (c : Byte) :
    en.pairAhead c = .ok (decide (c = Config.space) &&
      ((Memory.bytes en.raw)[en.i + 1]?).any pairchar) := by
  unfold Encoder.pairAhead
  have hlen := hb.length_bytes
  cases hn : (Memory.bytes en.raw)[en.i + 1]? with
  | none =>
    have hend := List.getElem?_eq_none_iff.1 hn
    rw [if_neg (by omega)]
    simp
  | some n =>
    obtain ⟨hlt, -⟩ := List.getElem?_eq_some_iff.1 hn
    by_cases hs : c = Config.space
    · rw [if_pos ⟨hs, by omega⟩, Encoder.rawRead_eq hb hn]
      simp [hs, Except.map]
    · rw [if_neg (by simp [hs])]
      simp [hs]

/-- `EMIT_RUN` at a byte that is not plain (R114). -/
theorem Encoder.emitRun_eq (hb : Buffer en.raw en.rawLen)
    (hc : (Memory.bytes en.raw)[en.i]? = some c) (hp : plain c = false) (r : EncLatches) :
    ∃ r', ({ en with latch := r } : Encoder).emitRun p = .ok (en.afterToken p
      (BitVec.ofNat 8 (runBytes (Memory.bytes en.raw) en.i).length ::
          runBytes (Memory.bytes en.raw) en.i,
        (runBytes (Memory.bytes en.raw) en.i).length) c r' en.draws) := by
  obtain ⟨hlt, -⟩ := List.getElem?_eq_some_iff.1 hc
  obtain ⟨h8, -, hin, htake⟩ := runBytes_spec (Memory.bytes en.raw) en.i
  have hcount : ({ en with latch := r } : Encoder).countRun (Config.runMax - 1) 1 =
      .ok (runBytes (Memory.bytes en.raw) en.i).length := by
    rw [countRun_eq (en := { en with latch := r }) hb, runBytes_cons hc hp,
      List.length_cons, Nat.add_comm 1]
    rfl
  generalize runBytes (Memory.bytes en.raw) en.i = bs at h8 hin htake hcount ⊢
  have h4 : (BitVec.ofNat 4 bs.length).toNat = bs.length := by simp; omega
  have hwide : (BitVec.ofNat 4 bs.length).setWidth 8 = BitVec.ofNat 8 bs.length := by
    apply BitVec.eq_of_toNat_eq
    simp
    omega
  have hholds : HoldsAt en.raw en.i bs := by
    intro k hk
    rw [hb.read_eq, htake, List.getElem?_take_of_lt hk, List.getElem?_drop]
  have hreads : ({ en with latch := { r with cnt := BitVec.ofNat 4 bs.length } } :
      Encoder).rawReads en.i bs.length = .ok bs :=
    Encoder.rawReads_eq hholds (hb.length_bytes ▸ hin hlt.le)
  refine ⟨{ r with cnt := BitVec.ofNat 4 bs.length }, ?_⟩
  rw [← Encoder.emit_eq_afterToken hb hc, Encoder.emitRun, hcount]
  simp only [Except.bind, Encoder.setCnt, h4, hreads, hwide]

/-- The literal family emits the token of R111. -/
theorem Encoder.literalFamily_eq (hb : Buffer en.raw en.rawLen)
    (hc : (Memory.bytes en.raw)[en.i]? = some c) (r : EncLatches) :
    ∃ r', ({ en with latch := r } : Encoder).literalFamily p =
      .ok (en.afterToken p (literalToken (Memory.bytes en.raw) en.i c) c r' en.draws) := by
  have hread : ({ en with latch := r } : Encoder).rawRead en.i = .ok c := Encoder.rawRead_eq hb hc
  have hpair := Encoder.pairAhead_eq (en := { en with latch := r }) hb c
  simp only [Encoder.literalFamily, hread, hpair, Except.bind]
  rcases literalToken_cases (Memory.bytes en.raw) en.i c with
    ⟨n, hn, hspace, hp, htok⟩ | ⟨hp, htok, hno⟩ | ⟨hp, htok⟩ <;> rw [htok]
  · have hnext : ({ en with latch := r } : Encoder).rawRead (en.i + 1) = .ok n :=
      Encoder.rawRead_eq hb hn
    refine ⟨{ r with n := n }, ?_⟩
    rw [if_pos (by simp [hn, hspace, hp]), ← Encoder.emit_eq_afterToken hb hc]
    simp only [Encoder.emitSpair, hnext, Except.bind]
    rfl
  · refine ⟨r, ?_⟩
    rw [if_neg, if_pos hp, ← Encoder.emit_eq_afterToken hb hc]
    · simp only [Encoder.emitLit, hread, Except.bind]
    · cases hn : (Memory.bytes en.raw)[en.i + 1]? with
      | none => simp
      | some n =>
        by_cases hspace : c = Config.space
        · simp [hno hspace n hn]
        · simp [hspace]
  · have hspace : c ≠ Config.space := by
      rintro rfl
      exact absurd hp (by decide)
    rw [if_neg (by simp [hspace]), if_neg (by simp [hp])]
    exact Encoder.emitRun_eq hb hc hp r

/-- An encoder step with stream left emits the token of R124 where it fits, and else raises
OutOfMemory, for every policy that meets the contract of R107. -/
theorem Encoder.stepWith_eq_afterToken {policy : MatchPolicy} (hpol : PolicyContract policy)
    (hb : Buffer en.raw en.rawLen) (hc : (Memory.bytes en.raw)[en.i]? = some c) :
    ∃ r n, en.stepWith policy p =
      .ok (en.afterToken p (emittedToken policy (Memory.bytes en.raw) en.i c) c r n) := by
  obtain ⟨hlt, -⟩ := List.getElem?_eq_some_iff.1 hc
  rw [hb.length_bytes] at hlt
  unfold Encoder.stepWith Encoder.search emittedToken
  rw [if_neg (by omega), hb.ofBytes_bytes, hb.length_bytes]
  cases hm : policy en.raw en.rawLen en.i with
  | none =>
    obtain ⟨r, hr⟩ := Encoder.literalFamily_eq (p := p) hb hc { en.latch with found := false }
    simp only [hr, Except.map, Bool.false_eq_true, ↓reduceIte, Encoder.afterToken_release]
    exact ⟨_, _, rfl⟩
  | some m =>
    obtain ⟨j, L⟩ := m
    obtain ⟨h3, h10, -, -, hd, -⟩ := hpol _ _ _ _ _ hb hm
    have he := Encoder.emitBref_eq (p := p) hb hc
      (r := { en.latch with found := true, j := j, L := BitVec.ofNat 4 L }) rfl rfl h3 h10 hd
    simp only [he, Except.map, ↓reduceIte, Encoder.afterToken_release]
    exact ⟨_, _, rfl⟩

end Emission

end Sys2Proof.Machine
end

section
/-! SUPPORT. Each transition of a block keeps its invariants (R34). -/

namespace Sys2Proof.Machine

open Sys2Proof

section Decoder

variable {p : Config.Params} {d d' : Decoder}

/-- A decoder in RUN has no error. -/
theorem DecInv.err_of_run (h : DecInv p d) (hrun : d.port.status = .run) : d.port.err = .none := by
  have hne : ¬ d.port.status = .err := by simp [hrun]
  exact not_not.1 fun he => hne (h.errs.2 he)

/-- RESET (R26). -/
theorem decInv_afterReset (p : Config.Params) (n : Nat) : DecInv p (.afterReset n) where
  input    := .nil
  cursor   := le_rfl
  out      := .nil
  capacity := fits_zero _
  ratio    := le_rfl
  inCap    := fits_zero _
  width    := ⟨fitsWidth_zero _, fitsWidth_zero _⟩
  launch   := nofun
  errs     := by simp [Decoder.afterReset]

/-- START (R25). -/
theorem decInv_launched {buffer : List Byte} (h : launchOk p p.outCap buffer.length = true)
    (n : Nat) : DecInv p (.launched buffer n) := by
  obtain ⟨hcap, hin, hout⟩ := launchOk_eq_true_iff.1 h
  exact {
    input    := Memory.buffer_ofBytes buffer
    cursor   := Nat.zero_le _
    out      := .nil
    capacity := fits_zero _
    ratio    := le_rfl
    inCap    := hcap
    width    := ⟨hin, fitsWidth_zero _⟩
    launch   := fun _ => hout
    errs     := by simp [Decoder.launched] }

/-- The end of the run (R80). -/
theorem DecInv.finish (h : DecInv p d) (hrun : d.port.status = .run) : DecInv p d.finish :=
  { h with
    launch := nofun
    errs   := by simp [h.err_of_run hrun] }

/-- A token's appends: at most five bytes for each of its own (R83). -/
theorem DecInv.moved {len : Nat} {bs : List Byte} (h : DecInv p d) (hrun : d.port.status = .run)
    (hi : d.i < d.inLen) (hlen : bs.length ≤ 5 * len) (hm : d.Moved p len bs d') :
    DecInv p d' := by
  obtain ⟨r, rfl, hfits, hin⟩ := hm
  have hratio : d.o + bs.length ≤ 5 * (d.i + len) := by
    have := h.ratio
    omega
  exact { h with
    cursor   := hin hi
    out      := h.out.writeAll bs
    capacity := hfits
    ratio    := hratio
    width    := ⟨h.width.1, fitsWidth_of_fits hfits (h.launch hrun)⟩ }

/-- An error (R131, R132). -/
theorem DecInv.raised {k : Nat} (h : DecInv p d) (hi : d.i < d.inLen) (hr : d.Raised k d') :
    DecInv p d' := by
  obtain ⟨err, cause, first, r, herr, -, hin, rfl⟩ := hr
  have hratio : d.o ≤ 5 * (d.i + k) := by
    have := h.ratio
    omega
  exact { h with
    cursor := hin hi
    ratio  := hratio
    launch := nofun
    errs   := ⟨fun _ => herr, fun _ => rfl⟩ }

/-- Every transition of the decoder. -/
theorem DecInv.transition {s : State} (h : DecInv s.params s.dec) (ht : DecoderTransition s d') :
    DecInv s.params d' := by
  cases ht with
  | kept heq => exact heq ▸ h
  | launch buffer rest _ hok heq => exact heq ▸ decInv_launched hok _
  | reset rest _ heq => exact heq ▸ decInv_afterReset _ _
  | step _ hrun hstep =>
    rcases hstep with ⟨-, rfl⟩ | ⟨hi, ⟨len, bs, -, hlen, hm⟩ | ⟨k, hr⟩⟩
    · exact h.finish hrun
    · exact h.moved hrun hi hlen hm
    · exact h.raised hi hr

end Decoder

section Encoder

variable {p : Config.Params} {en en' : Encoder}

/-- An encoder in RUN has no error. -/
theorem EncInv.err_of_run (h : EncInv p en) (hrun : en.port.status = .run) :
    en.port.err = .none := by
  have hne : ¬ en.port.status = .err := by simp [hrun]
  exact not_not.1 fun he => hne (h.errs.2 he)

/-- RESET (R26). -/
theorem encInv_afterReset (p : Config.Params) (n : Nat) : EncInv p (.afterReset n) where
  raw       := .nil
  cursor    := le_rfl
  code      := .nil
  capacity  := fits_zero _
  ratio     := le_rfl
  inCap     := fits_zero _
  width     := ⟨fitsWidth_zero _, fitsWidth_zero _⟩
  launch    := nofun
  errs      := by simp [Encoder.afterReset]
  noCorrupt := nofun

/-- START (R25). -/
theorem encInv_launched {buffer : List Byte} (h : launchOk p p.codeCap buffer.length = true)
    (n : Nat) : EncInv p (.launched buffer n) := by
  obtain ⟨hcap, hraw, hcode⟩ := launchOk_eq_true_iff.1 h
  exact {
    raw       := Memory.buffer_ofBytes buffer
    cursor    := Nat.zero_le _
    code      := .nil
    capacity  := fits_zero _
    ratio     := le_rfl
    inCap     := hcap
    width     := ⟨hraw, fitsWidth_zero _⟩
    launch    := fun _ => hcode
    errs      := by simp [Encoder.launched]
    noCorrupt := nofun }

/-- The end of the run (R110). -/
theorem EncInv.finish (h : EncInv p en) (hrun : en.port.status = .run) : EncInv p en.finish :=
  { h with
    launch := nofun
    errs   := by simp [h.err_of_run hrun] }

/-- An emission: at most two bytes for each raw byte (R117). -/
theorem EncInv.afterEmit {tok : List Byte × Nat} (h : EncInv p en)
    (hrun : en.port.status = .run) (htok : StandsFor (Memory.bytes en.raw) en.i tok)
    (hfits : fits p.codeCap (en.e + tok.1.length) = true) (r : EncLatches) (n : Nat) :
    EncInv p (en.afterEmit tok r n) := by
  have hratio : en.e + tok.1.length ≤ 2 * (en.i + tok.2) := by
    have := h.ratio
    have := htok.ratio
    omega
  exact { h with
    cursor   := h.raw.length_bytes ▸ htok.inside
    code     := h.code.writeAll tok.1
    capacity := hfits
    ratio    := hratio
    width    := ⟨h.width.1, fitsWidth_of_fits hfits (h.launch hrun)⟩ }

/-- OutOfMemory (R132). -/
theorem EncInv.afterFull (h : EncInv p en) (first : Byte) (r : EncLatches) (n : Nat) :
    EncInv p (en.afterFull first r n) :=
  { h with
    launch    := nofun
    errs      := ⟨nofun, fun _ => rfl⟩
    noCorrupt := nofun }

/-- What the own step of an encoder in a good state does: the end of the run (R110), or the token of
R124 emitted or refused (R132). -/
theorem EncInv.stepWith_cases (h : EncInv p en) (hstep : en.stepWith refMatch p = .ok en') :
    en' = en.finish ∨
      ∃ tok c r n, StandsFor (Memory.bytes en.raw) en.i tok ∧ en' = en.afterToken p tok c r n := by
  rcases Encoder.stepWith_cases hstep with ⟨-, rfl⟩ | ⟨hi, -⟩
  · exact .inl rfl
  · obtain ⟨c, hread⟩ := h.raw.read_isSome hi
    have hc : (Memory.bytes en.raw)[en.i]? = some c := h.raw.read_eq en.i ▸ hread
    obtain ⟨r, n, heq⟩ := Encoder.stepWith_eq_afterToken (p := p) refMatch_contract h.raw hc
    exact .inr ⟨_, c, r, n, standsFor_emittedToken refMatch_contract hc,
      Except.ok.inj (hstep.symm.trans heq)⟩

/-- Every transition of the encoder. -/
theorem EncInv.transition {s : State} (h : EncInv s.params s.enc) (ht : EncoderTransition s en') :
    EncInv s.params en' := by
  cases ht with
  | kept heq => exact heq ▸ h
  | launch buffer rest _ hok heq => exact heq ▸ encInv_launched hok _
  | reset rest _ heq => exact heq ▸ encInv_afterReset _ _
  | step _ hrun hstep =>
    rcases h.stepWith_cases hstep with rfl | ⟨tok, c, r, n, htok, rfl⟩
    · exact h.finish hrun
    · unfold Encoder.afterToken
      split
      · exact h.afterEmit hrun htok ‹_› r n
      · exact h.afterFull c r n

/-- A call that has emitted nothing round-trips. -/
theorem roundTrip_of_empty (hcode : en.code = []) (hi : en.i = 0) : RoundTrip en := by
  simp only [RoundTrip, hcode, hi]
  rfl

/-- An emission keeps the round trip: the token's raw bytes follow those behind the cursor (R118). -/
theorem RoundTrip.afterEmit {tok : List Byte × Nat} (h : RoundTrip en)
    (hcode : Buffer en.code en.e) (htok : StandsFor (Memory.bytes en.raw) en.i tok)
    (r : EncLatches) (n : Nat) : RoundTrip (en.afterEmit tok r n) := by
  obtain ⟨b, bs, hbytes, hdecode⟩ := htok.decodes
  have hext : Memory.bytes (writeAll en.code en.e tok.1) = Memory.bytes en.code ++ b :: bs := by
    rw [hcode.bytes_writeAll, hbytes]
  show decodeFn none (Memory.bytes (writeAll en.code en.e tok.1)) =
    .ok ((Memory.bytes en.raw).take (en.i + tok.2))
  rw [hext]
  exact decodeFn_append_token h (hdecode _)

/-- Every transition of an encoder in a good state keeps the round trip. -/
theorem RoundTrip.transition {s : State} (hinv : EncInv s.params s.enc) (h : RoundTrip s.enc)
    (ht : EncoderTransition s en') : RoundTrip en' := by
  cases ht with
  | kept heq => exact heq ▸ h
  | launch buffer rest _ _ heq => exact heq ▸ roundTrip_of_empty rfl rfl
  | reset rest _ heq => exact heq ▸ roundTrip_of_empty rfl rfl
  | step _ _ hstep =>
    rcases hinv.stepWith_cases hstep with rfl | ⟨tok, c, r, n, htok, rfl⟩
    · exact h
    · unfold Encoder.afterToken
      split
      · exact h.afterEmit hinv.code htok r n
      · exact h

end Encoder

end Sys2Proof.Machine
end

section
/-! PROOFS. The state: the invariants of R34, the host commands, the status, the buffers, and what the
host reads. -/

namespace Sys2Proof.Machine

open Sys2Proof

/-! ### The invariants -/

/-- Settles O33: every transition of the decoder keeps its invariants. -/
theorem stepKeepsDecoderInvariants : Obligations.StepKeepsDecoderInvariants := by
  intro s t hinv h
  rw [step_params h]
  exact hinv.transition (step_decoderTransition h)

/-- Settles O34: every transition of the encoder keeps its invariants; the token emitted is at most
twice as long as the raw bytes it stands for. -/
theorem stepKeepsEncoderInvariants : Obligations.StepKeepsEncoderInvariants := by
  intro s t hinv h
  rw [step_params h]
  exact hinv.transition (step_encoderTransition h)

/-- Settles O35: a code that decodes to the bytes behind the cursor, followed by the token emitted
there, decodes to the bytes behind the new cursor. -/
theorem stepKeepsTheRoundTrip : Obligations.StepKeepsTheRoundTrip :=
  fun _ _ hinv hround h => hround.transition hinv (step_encoderTransition h)

/-- Settles O36: both blocks are as RESET leaves them. -/
theorem resetMeetsTheInvariants : Obligations.ResetMeetsTheInvariants :=
  ⟨⟨decInv_afterReset _ 0, encInv_afterReset _ 0⟩, roundTrip_of_empty rfl rfl⟩

/-! ### Reset and the host commands -/

/-- Settles O9: both blocks of the reset state are as RESET leaves them. -/
theorem resetStateIsTheResetTable : Obligations.ResetStateIsTheResetTable :=
  ⟨rfl, rfl, rfl, rfl, rfl, fun _ => ⟨rfl, rfl⟩, rfl, rfl, rfl, rfl, rfl, fun _ => ⟨rfl, rfl⟩⟩

/-- Settles O10: the scheduled event is the whole step, and it writes its block only. -/
theorem resetCommandClearsTheBlock : Obligations.ResetCommandClearsTheBlock := by
  intro s rest
  refine ⟨fun hs => ?_, fun hs => ?_⟩
  · exact ⟨_, step_of_schedule hs, rfl, rfl, rfl, rfl, rfl, fun _ => ⟨rfl, rfl⟩, rfl, rfl, rfl⟩
  · exact ⟨_, step_of_schedule hs, rfl, rfl, rfl, rfl, rfl, fun _ => ⟨rfl, rfl⟩, rfl, rfl, rfl⟩

/-- A loaded buffer holds its bytes from address 0 on. -/
theorem holdsAt_ofBytes (bs : List Byte) : HoldsAt (Memory.ofBytes bs) 0 bs := by
  intro k _
  simp

/-- Settles O11: START that is not refused makes the launched block. -/
theorem startLoadsTheCall : Obligations.StartLoadsTheCall := by
  intro s buffer rest hcap hlen
  have hbuf := Memory.buffer_ofBytes buffer
  have hholds := holdsAt_ofBytes buffer
  refine ⟨fun hs hstop hout => ?_, fun hs hstop hout => ?_⟩
  · have hstart : s.dec.start s.params buffer = .launched buffer s.dec.draws :=
      Decoder.start_of_launchOk hstop (launchOk_eq_true_iff.2 ⟨hcap, hlen, hout⟩)
    refine ⟨{ s with dec := .launched buffer s.dec.draws, schedule := rest }, ?_,
      hbuf, hholds, rfl, rfl, rfl, .nil, rfl, rfl, rfl, rfl, rfl⟩
    simp [step_of_schedule hs, runEvent, hostStart, hstart]
  · have hstart : s.enc.start s.params buffer = .launched buffer s.enc.draws :=
      Encoder.start_of_launchOk hstop (launchOk_eq_true_iff.2 ⟨hcap, hlen, hout⟩)
    refine ⟨{ s with enc := .launched buffer s.enc.draws, schedule := rest }, ?_,
      hbuf, hholds, rfl, rfl, rfl, .nil, rfl, rfl, rfl, rfl, rfl⟩
    simp [step_of_schedule hs, runEvent, hostStart, hstart]

/-- Settles O12: START leaves a running block. -/
theorem startInRunIsIgnored : Obligations.StartInRunIsIgnored :=
  fun _ _ _ =>
    ⟨fun hs hrun => step_start_decoder_of_kept hs (Decoder.start_of_run hrun),
      fun hs hrun => step_start_encoder_of_kept hs (Encoder.start_of_run hrun)⟩

/-- Settles O13: a refused START leaves its block, and refusal is the failure of one of the
three sizes. -/
theorem refusedStartLeavesTheBlock : Obligations.RefusedStartLeavesTheBlock :=
  fun _ _ _ =>
    ⟨fun hs hno => step_start_decoder_of_kept hs (Decoder.start_of_refused hno),
      fun hs hno => step_start_encoder_of_kept hs (Encoder.start_of_refused hno),
      fun _ => launchOk_eq_false_iff⟩

/-! ### The status -/

/-- Settles O27: read off the transitions of each block. -/
theorem statusMovesOnlyAsStated : Obligations.StatusMovesOnlyAsStated := by
  intro s t h
  refine ⟨fun hne => ?_, fun hne => ?_⟩
  · cases step_decoderTransition h with
    | kept heq => exact absurd (by rw [heq]) hne
    | launch buffer rest hs _ heq => exact .inl ⟨by rw [heq]; rfl, buffer, rest, hs⟩
    | reset rest hs heq => exact .inr (.inl ⟨by rw [heq]; rfl, rest, hs⟩)
    | step hmoving hrun hstep =>
      rcases hstep.status_cases with hkept | ⟨hdone, hend⟩ | ⟨herr, hcode⟩
      · exact absurd hkept hne
      · exact .inr (.inr (.inl ⟨hrun, hmoving, hdone, hend⟩))
      · exact .inr (.inr (.inr ⟨hrun, hmoving, herr, hcode⟩))
  · cases step_encoderTransition h with
    | kept heq => exact absurd (by rw [heq]) hne
    | launch buffer rest hs _ heq => exact .inl ⟨by rw [heq]; rfl, buffer, rest, hs⟩
    | reset rest hs heq => exact .inr (.inl ⟨by rw [heq]; rfl, rest, hs⟩)
    | step hmoving hrun hstep =>
      rcases Encoder.stepWith_status_cases hstep with hkept | ⟨hdone, hend⟩ | ⟨herr, hcode⟩
      · exact absurd hkept hne
      · exact .inr (.inr (.inl ⟨hrun, hmoving, hdone, hend⟩))
      · exact .inr (.inr (.inr ⟨hrun, hmoving, herr, hcode⟩))

/-! ### The buffers -/

/-- Settles O30: without a host command a block is kept or makes its own step, which leaves its
input. -/
theorem inputsAreImmutable : Obligations.InputsAreImmutable := by
  intro s t h hstart hreset
  obtain ⟨hinput, hinLen⟩ : t.dec.input = s.dec.input ∧ t.dec.inLen = s.dec.inLen := by
    rcases step_dec_kept_or_stepped h hstart hreset with hkept | hstep
    · simp [hkept]
    · exact hstep.input_eq
  have henc : t.enc.raw = s.enc.raw ∧ t.enc.rawLen = s.enc.rawLen := by
    rcases step_enc_kept_or_stepped h hstart hreset with hkept | hstep
    · simp [hkept]
    · exact Encoder.stepWith_raw_eq hstep
  exact ⟨hinput, hinLen, henc⟩

/-- Settles O31: without a host command a block is kept or makes its own step, which only appends. -/
theorem outputsAreAppendOnly : Obligations.OutputsAreAppendOnly := by
  intro s t h hstart hreset
  obtain ⟨ho, hout⟩ : s.dec.o ≤ t.dec.o ∧
      ∀ a, a < s.dec.o → Memory.read t.dec.out a = Memory.read s.dec.out a := by
    rcases step_dec_kept_or_stepped h hstart hreset with hkept | hstep
    · simp [hkept]
    · exact hstep.appends
  obtain ⟨he, hcode⟩ : s.enc.e ≤ t.enc.e ∧
      ∀ a, a < s.enc.e → Memory.read t.enc.code a = Memory.read s.enc.code a := by
    rcases step_enc_kept_or_stepped h hstart hreset with hkept | hstep
    · simp [hkept]
    · exact Encoder.stepWith_appends hstep
  exact ⟨ho, he, hout, hcode⟩

/-! ### What the host reads -/

/-- In DONE the host reads the whole output (R29). -/
theorem Port.readResult_of_done {port : Port} {m : Memory} {n : Nat} (hb : Buffer m n)
    (h : port.status = .done) :
    port.readResult m n = some (Memory.bytes m) ∧
      port.readOutLen n = some (Memory.bytes m).length := by
  simp [Port.readResult, Port.readOutLen, h, Memory.slice_eq hb n 0, List.take_of_length_le,
    hb.length_bytes]

/-- In no other status does it read any byte (R28). -/
theorem Port.readResult_of_ne_done {port : Port} (m : Memory) (n : Nat)
    (h : port.status ≠ .done) : port.readResult m n = none := by
  unfold Port.readResult
  split
  · contradiction
  · rfl

/-- Settles O59: the output buffer of a good state is exactly what the result reads. -/
theorem resultReadsBack : Obligations.ResultReadsBack :=
  fun _ ⟨hdec, henc⟩ =>
    ⟨Port.readResult_of_done hdec.out, Port.readResult_of_done henc.code,
      Port.readResult_of_ne_done _ _, Port.readResult_of_ne_done _ _⟩

/-- IN_LEN and OUT_LEN by the status (R27, R28). -/
theorem Port.readLengths (port : Port) (filled len : Nat) :
    (port.status ≠ .run → port.readInLen len = some len) ∧
      (port.status = .idle ∨ port.status = .err → port.readOutLen filled = some 0) ∧
      (port.status = .done → port.readOutLen filled = some filled) ∧
      (port.status = .run → port.readInLen len = none ∧ port.readOutLen filled = none) := by
  cases hs : port.status <;> simp [Port.readInLen, Port.readOutLen, hs]

/-- Settles O58: each register by the status, and the codes. -/
theorem hostRegistersRead : Obligations.HostRegistersRead := by
  refine ⟨fun port filled len => ?_, fun d => d.port.readLengths d.o d.inLen,
    fun en => en.port.readLengths en.e en.rawLen, rfl, rfl, rfl, fun e => ?_, rfl, rfl, rfl, rfl, rfl⟩
  · cases hs : port.status <;>
      simp [Port.readStatus, Port.readErr, Port.readErrInfo, Port.readOutLen, Port.readInLen,
        Status.code, hs]
  · cases e <;> decide

end Sys2Proof.Machine
end

section
/-! SUPPORT. The memories in a step: what a copy leaves in OUT (R90), the canonical form of each, and
that from a good state no access is out of bounds, so every part of a block's step answers (R36 to
R39, R45). -/

namespace Sys2Proof.Machine

open Sys2Proof

/-! ### The copy -/

/-- A copy only adds to what is there. -/
theorem prefix_copyBytes (dist n : Nat) (out : List Byte) : out <+: copyBytes dist n out := by
  induction n generalizing out with
  | zero => exact List.prefix_rfl
  | succ n ih => exact (List.prefix_append _ _).trans (ih _)

/-- Each byte of a copy is the byte `dist` behind it, bytes of the same copy included (R48, R90). -/
theorem copyBytes_getElem? {dist n k : Nat} {out : List Byte} (h1 : 1 ≤ dist)
    (h2 : dist ≤ out.length) (hk : k < n) :
    (copyBytes dist n out)[out.length + k]? = (copyBytes dist n out)[out.length + k - dist]? := by
  induction n generalizing out k with
  | zero => omega
  | succ n ih =>
    obtain ⟨b, hb⟩ : ∃ b, out[out.length - dist]? = some b :=
      ⟨_, List.getElem?_eq_getElem (by omega)⟩
    have hstep : copyBytes dist (n + 1) out = copyBytes dist n (out ++ [b]) := by
      rw [copyBytes, hb, Option.toList_some]
    cases k with
    | zero =>
      obtain ⟨rest, hrest⟩ := prefix_copyBytes dist n (out ++ [b])
      rw [hstep, ← hrest, List.append_assoc, Nat.add_zero,
        List.getElem?_append_left (i := out.length - dist) (by omega), hb,
        List.getElem?_append_right le_rfl, Nat.sub_self]
      rfl
    | succ k =>
      have := ih (out := out ++ [b]) (k := k) (by simp; omega) (by omega)
      rwa [List.length_append, List.length_singleton, Nat.add_assoc, Nat.add_comm 1,
        ← hstep] at this

/-- The same of the memory that a copy at the end of a buffer leaves. -/
theorem Buffer.read_copied {m : Memory} {o dist n k : Nat} {bs : List Byte} (hb : Buffer m o)
    (h1 : 1 ≤ dist) (h2 : dist ≤ o)
    (hcopy : copyBytes dist n (Memory.bytes m) = Memory.bytes m ++ bs) (hk : k < n) :
    Memory.read (Machine.writeAll m o bs) (o + k) =
      Memory.read (Machine.writeAll m o bs) (o + k - dist) := by
  have hlen := hb.length_bytes
  have hrep := copyBytes_getElem? h1 (hlen.symm ▸ h2) hk
  rw [hlen] at hrep
  rwa [(hb.writeAll bs).read_eq, (hb.writeAll bs).read_eq, hb.bytes_writeAll, ← hcopy]

/-! ### Each memory stays in canonical form -/

/-- Every transition of the decoder keeps IN and OUT in canonical form: OUT is appended to, both are
emptied by a command, and IN is loaded by START. -/
theorem DecoderTransition.memories_wf {s : State} {d' : Decoder} (ht : DecoderTransition s d')
    (hin : Memory.wf s.dec.input) (hout : Memory.wf s.dec.out) :
    Memory.wf d'.input ∧ Memory.wf d'.out := by
  cases ht with
  | kept heq => exact heq ▸ ⟨hin, hout⟩
  | launch buffer rest _ _ heq => exact heq ▸ ⟨Memory.wf_ofBytes buffer, .nil⟩
  | reset rest _ heq => exact heq ▸ ⟨.nil, .nil⟩
  | step _ _ hstep =>
    rcases hstep with
      ⟨-, rfl⟩ | ⟨-, ⟨len, bs, -, -, r, rfl, -⟩ | ⟨k, err, cause, first, r, -, -, -, rfl⟩⟩
    · exact ⟨hin, hout⟩
    · exact ⟨hin, wf_writeAll hout _ bs⟩
    · exact ⟨hin, hout⟩

/-- Every transition of the encoder keeps RAW and CODE in canonical form. -/
theorem EncoderTransition.memories_wf {s : State} {en' : Encoder} (ht : EncoderTransition s en')
    (hraw : Memory.wf s.enc.raw) (hcode : Memory.wf s.enc.code) :
    Memory.wf en'.raw ∧ Memory.wf en'.code := by
  cases ht with
  | kept heq => exact heq ▸ ⟨hraw, hcode⟩
  | launch buffer rest _ _ heq => exact heq ▸ ⟨Memory.wf_ofBytes buffer, .nil⟩
  | reset rest _ heq => exact heq ▸ ⟨.nil, .nil⟩
  | step _ _ hstep =>
    rcases Encoder.stepWith_cases hstep with
      ⟨-, rfl⟩ | ⟨-, ⟨token, adv, -, r, n, rfl⟩ | ⟨first, r, n, rfl⟩⟩
    · exact ⟨hraw, hcode⟩
    · exact ⟨hraw, wf_writeAll hcode _ token⟩
    · exact ⟨hraw, hcode⟩

/-! ### Every step of a good block answers -/

/-- A buffer holds each stretch of its bytes. -/
theorem Buffer.holdsAt_slice {m : Memory} {len : Nat} (hb : Buffer m len) (a n : Nat) :
    HoldsAt m a (((Memory.bytes m).drop a).take n) := by
  intro k hk
  have hkn : k < n := by
    rw [List.length_take] at hk
    omega
  rw [hb.read_eq, List.getElem?_take_of_lt hkn, List.getElem?_drop]

section Decoder

variable {p : Config.Params} {d : Decoder}

/-- The bytes of IN below its length can be read (R36). -/
theorem Decoder.inReads_answers (hin : Buffer d.input d.inLen) {a n : Nat} (h : a + n ≤ d.inLen) :
    ∃ bs, d.inReads a n = .ok bs := by
  have hlen : (((Memory.bytes d.input).drop a).take n).length = n := by
    simp [hin.length_bytes]
    omega
  have hreads := Decoder.inReads_eq (hin.holdsAt_slice a n) (by omega)
  rw [hlen] at hreads
  exact ⟨_, hreads⟩

/-- With stream left the fetch answers, with one byte at least (R41, R63). -/
theorem Decoder.fetch_answers (hin : Buffer d.input d.inLen) (hi : d.i < d.inLen) :
    ∃ c bs, d.fetch = .ok (c :: bs) := by
  obtain ⟨c, hc⟩ := hin.read_isSome hi
  have hread : d.inRead d.i = .ok c := readBelow_eq hi hc
  simp only [Decoder.fetch, hread, Except.bind]
  split
  · have hend : d.i + 1 + (tokenLength c - 1) ≤ d.inLen := by omega
    obtain ⟨bs, hbs⟩ := Decoder.inReads_answers hin hend
    exact ⟨c, bs, by rw [hbs]; rfl⟩
  · exact ⟨c, [], rfl⟩

/-- BREF answers: the copy starts at a distance inside the output and finds room (R89, R94). -/
theorem Decoder.brefBody_answers (hout : Buffer d.out d.o) (distance : BitVec 11)
    (lm3 : BitVec 3) : ∃ d', d.brefBody p distance lm3 = .ok d' := by
  obtain ⟨r, r1, r2, hr, he⟩ := Decoder.brefBody_eq p distance lm3 d
  rw [he]
  dsimp only
  split
  · exact ⟨_, rfl⟩
  · split
    · exact ⟨_, rfl⟩
    · split
      · exact ⟨_, rfl⟩
      · split
        · rename_i hzero hfar hfits
          obtain ⟨r', hc⟩ := Decoder.copyLoop_eq (p := p) (lengthOf lm3)
            (d := { d with i := d.i + 2, latch := r }) hout (by simp only [hr]; omega)
            (by simp only [hr]; omega) hfits
          exact ⟨_, hc⟩
        · exact ⟨_, rfl⟩

/-- Every token answers. -/
theorem Decoder.tokenBody_answers (hout : Buffer d.out d.o) (i : Instr) :
    ∃ d', d.tokenBody p i = .ok d' := by
  cases i with
  | lit b =>
    obtain ⟨r, hr⟩ := Decoder.litBody_eq p b d
    rw [Decoder.tokenBody, hr]
    split <;> exact ⟨_, rfl⟩
  | run payload =>
    obtain ⟨r, hr⟩ := Decoder.runBody_eq p payload d
    rw [Decoder.tokenBody, hr]
    split
    · exact ⟨_, rfl⟩
    · split <;> exact ⟨_, rfl⟩
  | bref distance lm3 => exact Decoder.brefBody_answers hout distance lm3
  | spair q =>
    obtain ⟨r, hr⟩ := Decoder.spairBody_eq p q d
    rw [Decoder.tokenBody, hr]
    split <;> exact ⟨_, rfl⟩

/-- Bytes are refused as empty only where there are none (R66). -/
theorem decode_cons_ne_empty (c : Byte) (bs : List Byte) : decode (c :: bs) ≠ .error .empty := by
  rw [decode]
  split
  · unfold decodeRun
    split <;> simp
  · split
    · simp
    · split
      · simp
      · cases bs <;> simp [decodeBref]

/-- Fetched bytes answer: their token's body, or a truncation raised. -/
theorem Decoder.fetchedBody_answers (hout : Buffer d.out d.o) (c : Byte) (bs : List Byte) :
    ∃ d', d.fetchedBody p (c :: bs) = .ok d' := by
  unfold Decoder.fetchedBody
  split
  · exact Decoder.tokenBody_answers hout _
  · exact ⟨_, rfl⟩
  · exact ⟨_, rfl⟩
  · exact absurd ‹_› (decode_cons_ne_empty c bs)

end Decoder

/-- A decoder step from a good decoder has a next state. -/
theorem decoderStep_answers {s : State} (h : DecInv s.params s.dec) :
    ∃ t, decoderStep s = .next t := by
  unfold decoderStep
  split
  · split
    · exact ⟨_, rfl⟩
    · obtain ⟨c, bs, hfetch⟩ := Decoder.fetch_answers h.input (by omega)
      obtain ⟨d', hbody⟩ := Decoder.fetchedBody_answers (p := s.params) h.out c bs
      simp only [hfetch, runFetched_eq_fetchedBody, hbody]
      exact ⟨_, rfl⟩
  · exact ⟨_, rfl⟩

/-- An encoder step from a good encoder has a next state. -/
theorem encoderStep_answers {s : State} (h : EncInv s.params s.enc) :
    ∃ t, encoderStep s = .next t := by
  unfold encoderStep
  split
  · by_cases hend : s.enc.rawLen ≤ s.enc.i
    · rw [Encoder.stepWith, if_pos hend]
      exact ⟨_, rfl⟩
    · obtain ⟨c, hread⟩ := h.raw.read_isSome (Nat.lt_of_not_le hend)
      obtain ⟨r, n, heq⟩ := Encoder.stepWith_eq_afterToken (p := s.params) refMatch_contract h.raw
        (h.raw.read_eq s.enc.i ▸ hread)
      rw [heq]
      exact ⟨_, rfl⟩
  · exact ⟨_, rfl⟩

end Sys2Proof.Machine
end

section
/-! PROOFS. The memories: their canonical form, the order of reads and appends, and that no access is
out of bounds. -/

namespace Sys2Proof.Machine

open Sys2Proof

/-- Settles O37: every transition of each block keeps the canonical form of its two memories. -/
theorem stepKeepsMemoriesCanonical : Obligations.StepKeepsMemoriesCanonical := by
  intro s t ⟨hin, hout, hraw, hcode⟩ h
  obtain ⟨hin', hout'⟩ := (step_decoderTransition h).memories_wf hin hout
  exact ⟨hin', hout', (step_encoderTransition h).memories_wf hraw hcode⟩

/-- Settles O18: OUT after the token is the copy of R86, each byte of which is the byte `distance`
behind it; when the distance covers the length that byte stood there before the token. -/
theorem brefReadsItsOwnWrites : Obligations.BrefReadsItsOwnWrites := by
  intro distance lm3 s hb hi h1 h2 hf
  obtain ⟨bs, r, hbody, hlen, hcopy⟩ := Decoder.brefBody_copies s.params distance lm3 hb hi h1 h2 hf
  have hown : ∀ k, k < lengthOf lm3 →
      Memory.read (writeAll s.dec.out s.dec.o bs) (s.dec.o + k) =
        Memory.read (writeAll s.dec.out s.dec.o bs) (s.dec.o + k - distance.toNat) :=
    fun _ hk => hb.read_copied h1 h2 hcopy hk
  refine ⟨{ s with dec := (s.dec.afterAppend 2 bs r).release }, ?_, ?_, hb.writeAll bs, hown,
    fun hblock k hk => ?_⟩
  · rw [exec, execBref, hbody, State.answerDecoder_ok]
  · rw [← hlen]
    rfl
  · calc Memory.read (writeAll s.dec.out s.dec.o bs) (s.dec.o + k)
      _ = Memory.read (writeAll s.dec.out s.dec.o bs) (s.dec.o - distance.toNat + k) := by
        rw [hown k hk, Nat.sub_add_comm h2]
      _ = Memory.read s.dec.out (s.dec.o - distance.toNat + k) :=
        read_writeAll_below bs (by omega)

/-- Settles O38: a host command always answers, and so does each block's step from its invariants. -/
theorem goodStatesAlwaysStep : Obligations.GoodStatesAlwaysStep := by
  intro s ⟨hdec, henc⟩
  cases hs : s.schedule with
  | nil =>
    simp only [step, machineStep, hs, runUnscheduled]
    split
    · exact decoderStep_answers hdec
    · exact encoderStep_answers henc
  | cons ev rest =>
    rw [step_of_schedule hs]
    cases ev with
    | start block buffer => exact ⟨_, rfl⟩
    | reset block => exact ⟨_, rfl⟩
    | decoder => exact decoderStep_answers hdec
    | encoder => exact encoderStep_answers henc

end Sys2Proof.Machine
end

section
/-! SUPPORT. The decoder of tokens, said once per kind of first byte (R54, R63), what it refuses (R66),
and the operands as arithmetic on naturals (R60 to R62). -/

namespace Sys2Proof

/-! ### The terms that are tokens -/

theorem Instr.litByteOk_iff {b : Byte} :
    Instr.litByteOk b = true ↔ b.toNat = 0 ∨ (9 ≤ b.toNat ∧ b.toNat ≤ 0x7F) := by
  simp [Instr.litByteOk]

theorem Instr.runCountOk_iff {payload : List Byte} :
    Instr.runCountOk payload = true ↔ 1 ≤ payload.length ∧ payload.length ≤ 8 := by
  simp [Instr.runCountOk]

/-! ### The dispatch on the first byte -/

/-- The four ranges of the first byte cover every byte (R54, R64). -/
theorem firstByte_cases (c : Byte) :
    (c.toNat = 0 ∨ (9 ≤ c.toNat ∧ c.toNat ≤ 0x7F)) ∨ (1 ≤ c.toNat ∧ c.toNat ≤ 8) ∨
      (0x80 ≤ c.toNat ∧ c.toNat ≤ 0xBF) ∨ 0xC0 ≤ c.toNat := by
  omega

section Dispatch

variable {c : Byte} (rest : List Byte)

theorem decode_of_litByte (h : c.toNat = 0 ∨ (9 ≤ c.toNat ∧ c.toNat ≤ 0x7F)) :
    decode (c :: rest) = .ok (.lit c, rest) := by
  rw [decode, if_neg (by omega), if_pos (by omega)]

theorem decode_of_runByte (h : 1 ≤ c.toNat ∧ c.toNat ≤ 8) :
    decode (c :: rest) = decodeRun c rest := by
  rw [decode, if_pos h]

theorem decode_of_brefByte (h : 0x80 ≤ c.toNat ∧ c.toNat ≤ 0xBF) :
    decode (c :: rest) = decodeBref c rest := by
  rw [decode, if_neg (by omega), if_neg (by omega), if_neg (by omega)]

theorem decode_of_spairByte (h : 0xC0 ≤ c.toNat) :
    decode (c :: rest) = .ok (.spair (fieldQ c), rest) := by
  rw [decode, if_neg (by omega), if_neg (by omega), if_pos h]

end Dispatch

section Length

variable {c : Byte}

theorem tokenLength_of_litByte (h : c.toNat = 0 ∨ (9 ≤ c.toNat ∧ c.toNat ≤ 0x7F)) :
    tokenLength c = 1 := by
  rw [tokenLength, if_neg (by omega), if_pos (by omega)]

theorem tokenLength_of_runByte (h : 1 ≤ c.toNat ∧ c.toNat ≤ 8) : tokenLength c = 1 + c.toNat := by
  rw [tokenLength, if_pos h]

theorem tokenLength_of_brefByte (h : 0x80 ≤ c.toNat ∧ c.toNat ≤ 0xBF) : tokenLength c = 2 := by
  rw [tokenLength, if_neg (by omega), if_neg (by omega), if_neg (by omega)]

theorem tokenLength_of_spairByte (h : 0xC0 ≤ c.toNat) : tokenLength c = 1 := by
  rw [tokenLength, if_neg (by omega), if_neg (by omega), if_pos h]

end Length

/-! ### The two kinds with bytes after the first -/

theorem decodeRun_of_le {c : Byte} {rest : List Byte} (h : c.toNat ≤ rest.length) :
    decodeRun c rest = .ok (.run (rest.take c.toNat), rest.drop c.toNat) :=
  if_pos h

theorem decodeRun_of_lt {c : Byte} {rest : List Byte} (h : rest.length < c.toNat) :
    decodeRun c rest = .error (.truncRun c) :=
  if_neg (Nat.not_le.2 h)

@[simp] theorem decodeBref_nil (c : Byte) : decodeBref c [] = .error (.truncBref c) := rfl

@[simp] theorem decodeBref_cons (c b : Byte) (rest : List Byte) :
    decodeBref c (b :: rest) =
      .ok (.bref (fieldDistance (tokenValue c b)) (fieldLm3 (tokenValue c b)), rest) := rfl

/-- The count byte of a RUN holds the payload's length (R56, R59). -/
theorem countByte_toNat {payload : List Byte} (h : payload.length ≤ 8) :
    (BitVec.ofNat 8 payload.length).toNat = payload.length := by
  rw [BitVec.toNat_ofNat, Nat.mod_eq_of_lt (by omega)]

/-! ### Decode and encode -/

/-- Decoding the bytes of a well-formed token, whatever follows them, gives it back: its first byte
lies in the range of its kind, and its operands are read back from its fields. -/
theorem decode_encode_append {i : Instr} (rest : List Byte) (h : i.wf = true) :
    decode (encode i ++ rest) = .ok (i, rest) := by
  cases i with
  | lit b => exact decode_of_litByte rest (Instr.litByteOk_iff.1 h)
  | run payload =>
    obtain ⟨h1, h8⟩ := Instr.runCountOk_iff.1 h
    have hc := countByte_toNat h8
    have hle : (BitVec.ofNat 8 payload.length).toNat ≤ (payload ++ rest).length := by
      rw [hc, List.length_append]; omega
    rw [encode, List.cons_append, decode_of_runByte _ (by omega), decodeRun_of_le hle, hc,
      List.take_left, List.drop_left]
  | bref distance lm3 =>
    rw [encode, List.cons_append, List.cons_append, List.nil_append,
      decode_of_brefByte _ (high_pack distance lm3), decodeBref_cons, tokenValue_bytes,
      fieldDistance_pack, fieldLm3_pack]
  | spair q =>
    have hbyte : 0xC0 ≤ (spairByte q).toNat := by rw [spairByte_toNat]; omega
    rw [encode, List.cons_append, List.nil_append, decode_of_spairByte _ hbyte, fieldQ_spair]

/-- What a RUN that decodes is. -/
theorem encode_of_decodeRun {c : Byte} {bs rest : List Byte} {i : Instr}
    (hc : 1 ≤ c.toNat ∧ c.toNat ≤ 8) (h : decodeRun c bs = .ok (i, rest)) :
    i.wf = true ∧ encode i ++ rest = c :: bs := by
  rcases Nat.lt_or_ge bs.length c.toNat with hlt | hle
  · rw [decodeRun_of_lt hlt] at h; cases h
  · rw [decodeRun_of_le hle] at h; cases h
    have hlen : (bs.take c.toNat).length = c.toNat := List.length_take_of_le hle
    refine ⟨Instr.runCountOk_iff.2 (by omega), ?_⟩
    rw [encode, hlen, BitVec.ofNat_toNat, BitVec.setWidth_eq, List.cons_append,
      List.take_append_drop]

/-- What a BREF that decodes is. -/
theorem encode_of_decodeBref {c : Byte} {bs rest : List Byte} {i : Instr}
    (hc : 0x80 ≤ c.toNat ∧ c.toNat ≤ 0xBF) (h : decodeBref c bs = .ok (i, rest)) :
    i.wf = true ∧ encode i ++ rest = c :: bs := by
  cases bs with
  | nil => cases h
  | cons b bs =>
    cases h
    obtain ⟨hhigh, hlow⟩ := bytes_tokenValue c b
    refine ⟨rfl, ?_⟩
    rw [encode, pack_fields c b hc.1 hc.2, hhigh, hlow]
    rfl

/-- What decodes is a well-formed token, and its bytes are the bytes read. -/
theorem encode_of_decode {bs rest : List Byte} {i : Instr} (h : decode bs = .ok (i, rest)) :
    i.wf = true ∧ encode i ++ rest = bs := by
  cases bs with
  | nil => cases h
  | cons c bs =>
    rcases firstByte_cases c with hlit | hrun | hbref | hspair
    · rw [decode_of_litByte bs hlit] at h; cases h
      exact ⟨Instr.litByteOk_iff.2 hlit, rfl⟩
    · exact encode_of_decodeRun hrun (decode_of_runByte bs hrun ▸ h)
    · exact encode_of_decodeBref hbref (decode_of_brefByte bs hbref ▸ h)
    · rw [decode_of_spairByte bs hspair] at h; cases h
      exact ⟨rfl, by rw [encode, spair_fieldQ c hspair]; rfl⟩

/-- Decode and encode are inverse of each other on well-formed tokens. -/
theorem decode_eq_ok_iff {bs rest : List Byte} {i : Instr} :
    decode bs = .ok (i, rest) ↔ i.wf = true ∧ encode i ++ rest = bs :=
  ⟨encode_of_decode, fun ⟨hwf, hbs⟩ => hbs ▸ decode_encode_append rest hwf⟩

/-- The bytes that are refused are the truncated tokens (R64, R66). -/
theorem decode_cons_eq_error_iff {c : Byte} {rest : List Byte} {e : DecodeError} :
    decode (c :: rest) = .error e ↔
      (1 ≤ c.toNat ∧ c.toNat ≤ 8 ∧ rest.length < c.toNat ∧ e = .truncRun c) ∨
      (0x80 ≤ c.toNat ∧ c.toNat ≤ 0xBF ∧ rest = [] ∧ e = .truncBref c) := by
  refine ⟨fun h => ?_, ?_⟩
  · rcases firstByte_cases c with hlit | hrun | hbref | hspair
    · rw [decode_of_litByte rest hlit] at h; cases h
    · rw [decode_of_runByte rest hrun] at h
      rcases Nat.lt_or_ge rest.length c.toNat with hlt | hle
      · rw [decodeRun_of_lt hlt] at h; cases h
        exact .inl ⟨hrun.1, hrun.2, hlt, rfl⟩
      · rw [decodeRun_of_le hle] at h; cases h
    · rw [decode_of_brefByte rest hbref] at h
      cases rest with
      | nil => cases h; exact .inr ⟨hbref.1, hbref.2, rfl, rfl⟩
      | cons b rest => cases h
    · rw [decode_of_spairByte rest hspair] at h; cases h
  · rintro (⟨h1, h8, hlt, rfl⟩ | ⟨h80, hBF, rfl, rfl⟩)
    · rw [decode_of_runByte rest ⟨h1, h8⟩, decodeRun_of_lt hlt]
    · rw [decode_of_brefByte [] ⟨h80, hBF⟩, decodeBref_nil]

/-! ### The operands as naturals -/

/-- The big-endian value of two bytes (R41). -/
theorem tokenValue_eq_shift_or (c b : Byte) :
    (c.toNat <<< 8) ||| b.toNat = (tokenValue c b).toNat := by
  rw [shift_or_eq_add b.isLt, tokenValue_toNat]
  rfl

/-- The distance field by the formula of R61. -/
theorem fieldDistance_eq_and_shift (v : Half) :
    (fieldDistance v).toNat = (v.toNat &&& 0x3FFF) >>> 3 := by
  rw [fieldDistance_toNat, Nat.shiftRight_eq_div_pow]
  exact congrArg (· / 8) (Nat.and_two_pow_sub_one_eq_mod v.toNat 14).symm

/-- The length by the formula of R61. -/
theorem lengthOf_fieldLm3 (v : Half) : lengthOf (fieldLm3 v) = (v.toNat &&& 0x7) + 3 := by
  rw [lengthOf, fieldLm3_toNat]
  exact congrArg (· + 3) (Nat.and_two_pow_sub_one_eq_mod v.toNat 3).symm

/-- The reserved form (R61, R65). -/
theorem fieldDistance_eq_zero_iff {c b : Byte} (h : 0x80 ≤ c.toNat ∧ c.toNat ≤ 0xBF) :
    (fieldDistance (tokenValue c b)).toNat = 0 ↔ c.toNat = 0x80 ∧ b.toNat < 8 := by
  have := b.isLt
  rw [fieldDistance_toNat, tokenValue_toNat]
  omega

section Packing

variable {distance length : Nat}

/-- The three fields of R62 do not overlap. -/
theorem packedValue_eq_add (hd : distance ≤ 2047) (hl : length ≤ 10) :
    0x8000 ||| (distance <<< 3) ||| (length - 3) = 0x8000 + distance * 8 + (length - 3) := by
  have hmark : 0x8000 ||| (distance <<< 3) = (0x1000 + distance) <<< 3 := by
    have hfield : distance <<< 3 < 2 ^ 15 := by rw [Nat.shiftLeft_eq]; omega
    rw [show 0x8000 = 1 <<< 15 from rfl, shift_or_eq_add hfield, Nat.shiftLeft_eq, Nat.shiftLeft_eq]
    omega
  rw [hmark, shift_or_eq_add (by omega)]
  omega

/-- The fields of the first byte do not overlap (R105). -/
theorem packedHigh_eq_add (hd : distance ≤ 2047) :
    0x80 ||| (distance >>> 5) = 0x80 + distance / 32 := by
  have hfield : distance >>> 5 < 2 ^ 7 := by rw [Nat.shiftRight_eq_div_pow]; omega
  calc 0x80 ||| (distance >>> 5)
    _ = 1 * 2 ^ 7 + distance >>> 5 := shift_or_eq_add (a := 1) hfield
    _ = 0x80 + distance / 32 := congrArg (0x80 + ·) (Nat.shiftRight_eq_div_pow distance 5)

/-- The fields of the second byte do not overlap (R105). -/
theorem packedLow_eq_add (hl : length ≤ 10) :
    ((distance &&& 0x1F) <<< 3) ||| (length - 3) = distance % 32 * 8 + (length - 3) := by
  rw [shift_or_eq_add (by omega)]
  exact congrArg (· * 8 + (length - 3)) (Nat.and_two_pow_sub_one_eq_mod distance 5)

/-- The packed value is the natural number of R62. -/
theorem packBref_ofNat_toNat (hd : distance ≤ 2047) (hl : length ≤ 10) :
    (packBref (BitVec.ofNat 11 distance) (BitVec.ofNat 3 (length - 3))).toNat =
      0x8000 ||| (distance <<< 3) ||| (length - 3) := by
  rw [packBref_toNat, packedValue_eq_add hd hl, BitVec.toNat_ofNat, BitVec.toNat_ofNat,
    Nat.mod_eq_of_lt (a := distance) (by omega), Nat.mod_eq_of_lt (a := length - 3) (by omega)]

/-- `v >> 8` of the packed value (R62). -/
theorem packedValue_shiftRight (hd : distance ≤ 2047) (hl : length ≤ 10) :
    (0x8000 ||| (distance <<< 3) ||| (length - 3)) >>> 8 = 0x80 ||| (distance >>> 5) := by
  rw [packedValue_eq_add hd hl, packedHigh_eq_add hd, Nat.shiftRight_eq_div_pow]
  omega

/-- `v & 0xFF` of the packed value (R62). -/
theorem packedValue_and (hd : distance ≤ 2047) (hl : length ≤ 10) :
    (0x8000 ||| (distance <<< 3) ||| (length - 3)) &&& 0xFF =
      ((distance &&& 0x1F) <<< 3) ||| (length - 3) := by
  have hmask : ∀ v, v &&& 0xFF = v % 256 := fun v => Nat.and_two_pow_sub_one_eq_mod v 8
  rw [packedValue_eq_add hd hl, packedLow_eq_add hl, hmask]
  omega

end Packing

/-! ### The space pair -/

/-- Flipping the top bit of a byte that has it takes 0x80 off (R60). -/
theorem flip_toNat_of_high {c : Byte} (h : 0x80 ≤ c.toNat) :
    (c ^^^ 0x80#8).toNat = c.toNat - 0x80 := by
  revert c; decide

/-- Flipping the top bit of a byte that lacks it adds 0x80 (R60). -/
theorem flip_toNat_of_low {c : Byte} (h : c.toNat ≤ 0x7F) :
    (c ^^^ 0x80#8).toNat = c.toNat + 0x80 := by
  revert c; decide

end Sys2Proof
end

section
/-! SUPPORT. What a token that appends leaves, and SPAIR with room for its bytes (R77). -/

namespace Sys2Proof.Machine

open Sys2Proof

/-- A decoder that has appended is what `TokenDone` says (R38, R46). -/
theorem tokenDone_afterAppend (s : State) (len : Nat) (bs : List Byte) (r : DecLatches) :
    TokenDone s { s with dec := (s.dec.afterAppend len bs r).release } len bs :=
  ⟨rfl, rfl, writeAll_holds _ _ _, writeAll_other _ _ _, rfl, rfl, rfl, rfl, rfl, rfl⟩

/-- SPAIR with room for its two bytes appends them (R77). -/
theorem exec_spair_of_fits {s : State} (q : BitVec 6)
    (h : fits s.params.outCap (s.dec.o + 2) = true) :
    ∃ t, exec (.spair q) s = .next t ∧ TokenDone s t 1 [0x20#8, pairFlip (spairByte q)] := by
  obtain ⟨r, hbody⟩ := Decoder.spairBody_eq s.params q s.dec
  rw [if_pos h] at hbody
  refine ⟨_, ?_, tokenDone_afterAppend s 1 _ r⟩
  rw [exec, execSpair, hbody, State.answerDecoder_ok]
  rfl

end Sys2Proof.Machine
end

section
/-! PROOFS. The encoding: decode and encode are inverse, the dispatch map, and the operands. -/

namespace Sys2Proof

open Sys2Proof.Machine

/-- Settles O1: case by case, the first byte selects the token's kind and the fields give back its
operands. -/
theorem encodedTokenDecodesBack : Obligations.EncodedTokenDecodesBack :=
  fun _ rest hwf => decode_encode_append rest hwf

/-- Settles O2: in each range of the first byte the token read is well-formed and packs back. -/
theorem decodedTokenReencodes : Obligations.DecodedTokenReencodes :=
  fun _ _ _ h => encode_of_decode h

/-- Settles O5: the fields of the 16-bit value, by the formulas of R61. -/
theorem brefOperandsAssemble : Obligations.BrefOperandsAssemble := by
  intro c b rest h80 hBF
  obtain ⟨h3, h10⟩ := lengthOf_lt (fieldLm3 (tokenValue c b))
  refine ⟨fieldDistance (tokenValue c b), fieldLm3 (tokenValue c b), ?_, ?_, ?_,
    Nat.le_of_lt_succ (BitVec.isLt _), h3, h10, fieldDistance_eq_zero_iff ⟨h80, hBF⟩⟩
  · rw [decode_of_brefByte _ ⟨h80, hBF⟩, decodeBref_cons]
  · rw [tokenValue_eq_shift_or, fieldDistance_eq_and_shift]
  · rw [tokenValue_eq_shift_or, lengthOf_fieldLm3]

/-- Settles O6: the packed value is a sum of fields, its bytes are the two bytes of R105, and two
bytes that decode to the token are its encoding. -/
theorem brefPackingInverts : Obligations.BrefPackingInverts := by
  intro distance length _ hd h3 h10
  obtain ⟨hhigh, hlow⟩ := brefBytes_eq h3 h10 hd
  have hbyte := packedHigh_eq_add hd
  refine ⟨by rw [encode, hhigh, hlow], packBref_ofNat_toNat hd h10, packedValue_shiftRight hd h10,
    packedValue_and hd h10, by omega, by omega, fun c b _ _ => ?_⟩
  rw [decode_eq_ok_iff, List.append_nil, eq_comm (a := encode _)]
  exact and_iff_right rfl

/-- Settles O7: SPAIR appends 0x20 and its byte with the top bit flipped, which is 0x80 off. -/
theorem spairOperandAssembles : Obligations.SpairOperandAssembles := by
  refine ⟨fun c rest hc => ?_, fun ch h40 h7F => ?_⟩
  · have hflip : pairFlip (spairByte (fieldQ c)) = c ^^^ 0x80#8 := by
      rw [spair_fieldQ c hc]; rfl
    have hnat := flip_toNat_of_high (c := c) (by omega)
    refine ⟨⟨fieldQ c, decode_of_spairByte rest hc, hflip, fun s hroom => ?_⟩, hnat, ?_⟩
    · exact hflip ▸ exec_spair_of_fits (fieldQ c) hroom
    · have := c.isLt
      omega
  · have hnat := flip_toNat_of_low h7F
    exact ⟨hnat, by omega⟩

/-- Settles O3: the equation of the decoder and of the length for each range. -/
theorem firstByteSelectsTheKind : Obligations.FirstByteSelectsTheKind := by
  intro c rest
  refine ⟨fun h => ?_, fun h => ?_, fun h => ?_, fun h => ?_⟩
  · exact ⟨decode_of_litByte rest h, tokenLength_of_litByte h⟩
  · refine ⟨tokenLength_of_runByte h, fun hle => ?_⟩
    rw [decode_of_runByte rest h, decodeRun_of_le hle]
  · refine ⟨tokenLength_of_brefByte h, fun b r hrest => ?_⟩
    rw [hrest, decode_of_brefByte _ h]
    exact ⟨_, _, decodeBref_cons c b r⟩
  · exact ⟨tokenLength_of_spairByte h, decode_of_spairByte rest h⟩

/-- Settles O4: each clause is the exact condition of an error, for that error. -/
theorem onlyTruncatedTokensAreRefused : Obligations.OnlyTruncatedTokensAreRefused := by
  intro c rest
  refine ⟨by simp [decode_cons_eq_error_iff], by simp [decode_cons_eq_error_iff], fun e h => ?_⟩
  rcases decode_cons_eq_error_iff.1 h with ⟨-, -, -, he⟩ | ⟨-, -, -, he⟩
  · exact .inl he
  · exact .inr he

/-- Settles O8: five words, each evaluated. -/
theorem writtenOutWordsDecode : Obligations.WrittenOutWordsDecode := by
  refine ⟨?_, ?_, ?_, ?_, ?_⟩ <;> decide

end Sys2Proof
end

section
/-! SUPPORT. What each answer of a token's body makes of the machine (R131, R132, R136), and the
fetch that finds a token (R41, R74). -/

namespace Sys2Proof.Machine

open Sys2Proof

/-! ### From a token's body to `exec` -/

section Exec

variable {i : Instr} {s : State} {r : DecLatches}

/-- A decoder that has raised is what `TokenRaises` says (R131, R134). -/
theorem tokenRaises_afterRaise (s : State) (k : Nat) (err : ErrCode) (cause : Cause) (first : Byte)
    (r : DecLatches) :
    TokenRaises s { s with dec := (s.dec.afterRaise k err cause first r).release } err cause first :=
  ⟨rfl, rfl, rfl, rfl, rfl, rfl, rfl, rfl⟩

/-- A body that appends makes a token that completes. -/
theorem exec_done_of_body {len : Nat} {bs : List Byte}
    (h : s.dec.tokenBody s.params i = .ok (s.dec.afterAppend len bs r)) :
    ∃ t, exec i s = .next t ∧ TokenDone s t len bs :=
  ⟨_, by rw [exec_eq_tokenBody, h, State.answerDecoder_ok], tokenDone_afterAppend s len bs r⟩

/-- A body that raises makes a token that raises, `i` past the `k` bytes it consumed (log entry 14). -/
theorem exec_raises_of_body {k : Nat} {err : ErrCode} {cause : Cause} {first : Byte}
    (h : s.dec.tokenBody s.params i = .ok (s.dec.afterRaise k err cause first r)) :
    ∃ t, exec i s = .next t ∧ TokenRaises s t err cause first ∧ t.dec.i = s.dec.i + k :=
  ⟨_, by rw [exec_eq_tokenBody, h, State.answerDecoder_ok],
    tokenRaises_afterRaise s k err cause first r, rfl⟩

end Exec

/-- The second output byte of a space pair by its operand (R57, R60). -/
theorem pairFlip_spairByte (q : BitVec 6) : pairFlip (spairByte q) = 0x40#8 ||| q.setWidth 8 := by
  revert q; decide

/-! ### The fetch -/

/-- The first byte of a well-formed token gives its length (R54, R63). -/
theorem encode_eq_cons {i : Instr} (h : i.wf = true) :
    ∃ c bs, encode i = c :: bs ∧ tokenLength c = (encode i).length := by
  cases i with
  | lit b => exact Laws.EncodedLength.lit b h
  | run payload => exact Laws.EncodedLength.run payload h
  | bref distance lm3 => exact Laws.EncodedLength.bref distance lm3 h
  | spair q => exact Laws.EncodedLength.spair q h

section Fetch

variable {d : Decoder} {c : Byte}

/-- Bytes of IN as long as the first of them says are fetched (R41). -/
theorem Decoder.fetch_of_holdsAt {bs : List Byte} (hholds : HoldsAt d.input d.i (c :: bs))
    (hend : d.i + (c :: bs).length ≤ d.inLen) (hlen : tokenLength c = (c :: bs).length) :
    d.fetch = .ok (c :: bs) := by
  rw [List.length_cons] at hend hlen
  have hfirst : d.inRead d.i = .ok c := readBelow_eq (by omega) (by simpa using hholds 0 (by simp))
  have hrest : HoldsAt d.input (d.i + 1) bs := fun k hk => by
    have := hholds (k + 1) (by simpa using hk)
    rwa [Nat.add_comm k, ← Nat.add_assoc, Nat.add_comm 1 k, List.getElem?_cons_succ] at this
  have hcount : tokenLength c - 1 = bs.length := by omega
  simp only [Decoder.fetch, hfirst, Except.bind, hcount]
  rw [if_pos (by omega), Decoder.inReads_eq hrest (by omega)]
  rfl

/-- Of a token that the buffer cuts short the first byte alone is fetched (R36, R66). -/
theorem Decoder.fetch_of_truncated (hread : Memory.read d.input d.i = some c) (hi : d.i < d.inLen)
    (hcut : d.inLen < d.i + tokenLength c) : d.fetch = .ok [c] := by
  have hfirst : d.inRead d.i = .ok c := readBelow_eq hi hread
  simp only [Decoder.fetch, hfirst, Except.bind]
  rw [if_neg (by omega)]

end Fetch

/-! ### The step of a running decoder -/

/-- The token at `i`: its bytes fetched, decoded and run (R74). -/
def Decoder.fetchAndRun (p : Config.Params) (d : Decoder) : Except Fault Decoder :=
  d.fetch.bind fun bytes => d.fetchedBody p bytes

section Running

variable {s : State}

/-- With stream left a decoder step fetches and runs a token. -/
theorem decoderStep_of_lt (hrun : s.dec.port.status = .run) (hi : s.dec.i < s.dec.inLen) :
    decoderStep s = s.answerDecoder (s.dec.fetchAndRun s.params) := by
  rw [decoderStep, if_pos hrun, if_neg (Nat.not_le.2 hi), Decoder.fetchAndRun]
  cases s.dec.fetch with
  | error f => rfl
  | ok bytes => exact runFetched_eq_fetchedBody bytes s

/-- At the end of the stream a decoder step ends the run (R80). -/
theorem decoderStep_of_le (hrun : s.dec.port.status = .run) (hend : s.dec.inLen ≤ s.dec.i) :
    decoderStep s = .next { s with dec := s.dec.finish } := by
  rw [decoderStep, if_pos hrun, if_pos hend]

/-- With no event to come a running decoder moves (log entry 3). -/
theorem step_of_idle_schedule (hsched : s.schedule = []) (hrun : s.dec.port.status = .run) :
    step s = decoderStep s := by
  simp [step, machineStep, hsched, runUnscheduled, hrun]

/-- Where IN holds a well-formed token at `i`, the decoder step is that token. -/
theorem decoderStep_eq_exec {i : Instr} (hwf : i.wf = true) (hrun : s.dec.port.status = .run)
    (hholds : HoldsAt s.dec.input s.dec.i (encode i))
    (hend : s.dec.i + (encode i).length ≤ s.dec.inLen) : decoderStep s = exec i s := by
  obtain ⟨c, bs, hbytes, hlen⟩ := encode_eq_cons hwf
  have hdecode : decode (encode i) = .ok (i, []) := by
    simpa using decode_encode_append [] hwf
  have hfetch : s.dec.fetch = .ok (encode i) := by
    rw [hbytes] at hholds hend hlen ⊢
    exact Decoder.fetch_of_holdsAt hholds hend hlen
  have hpos := encode_length_pos i
  rw [decoderStep_of_lt hrun (by omega), exec_eq_tokenBody, Decoder.fetchAndRun, hfetch]
  simp only [Except.bind, Decoder.fetchedBody, hdecode]

end Running

end Sys2Proof.Machine
end

section
/-! PROOFS. The token interpreter: what LIT, RUN and SPAIR do, the frame of every token, and the
decoder's step. -/

namespace Sys2Proof.Machine

open Sys2Proof

/-! ### Tokens -/

/-- Settles O14: LIT's body with room and without. -/
theorem litAppendsItsByte : Obligations.LitAppendsItsByte := by
  intro b s
  obtain ⟨r, hbody⟩ := Decoder.litBody_eq s.params b s.dec
  refine ⟨fun hroom => ?_, fun hfull => ?_⟩
  · exact exec_done_of_body (hbody.trans (if_pos hroom))
  · exact exec_raises_of_body (hbody.trans (if_neg (Bool.eq_false_iff.1 hfull)))

/-- Settles O15: RUN's body, the truncation checked before the room (R135). -/
theorem runCopiesItsPayload : Obligations.RunCopiesItsPayload := by
  intro payload s _
  obtain ⟨r, hbody⟩ := Decoder.runBody_eq s.params payload s.dec
  refine ⟨fun hin hroom => ?_, fun hcut => ?_, fun hin hfull => ?_⟩
  · rw [if_neg (Nat.not_lt.2 hin), if_pos hroom] at hbody
    exact exec_done_of_body hbody
  · rw [if_pos hcut] at hbody
    exact exec_raises_of_body hbody
  · rw [if_neg (Nat.not_lt.2 hin), if_neg (Bool.eq_false_iff.1 hfull)] at hbody
    exact exec_raises_of_body hbody

/-- Settles O16: SPAIR's body with room for both bytes and without. -/
theorem spairAppendsSpaceAndByte : Obligations.SpairAppendsSpaceAndByte := by
  intro q s
  refine ⟨fun hroom => ?_, fun hfull => ?_⟩
  · exact pairFlip_spairByte q ▸ exec_spair_of_fits q hroom
  · obtain ⟨r, hbody⟩ := Decoder.spairBody_eq s.params q s.dec
    exact exec_raises_of_body (hbody.trans (if_neg (Bool.eq_false_iff.1 hfull)))

/-- Settles O21: a token appends its output at the old `o`, or raises and leaves OUT. -/
theorem tokensLeaveTheRestAlone : Obligations.TokensLeaveTheRestAlone := by
  intro i s t h
  have hpos := encode_length_pos i
  obtain ⟨d', rfl, ⟨bs, hlen, r, rfl, -, -⟩ |
    ⟨k, hk, err, cause, first, r, -, hk1, -, rfl⟩⟩ := exec_cases h
  · exact ⟨⟨rfl, rfl, rfl, rfl, rfl⟩, hlen ▸ writeAll_other _ _ bs, Nat.lt_add_of_pos_right hpos,
      le_rfl⟩
  · exact ⟨⟨rfl, rfl, rfl, rfl, rfl⟩, fun _ _ => rfl, Nat.lt_add_of_pos_right hk1,
      Nat.add_le_add_left hk _⟩

/-! ### The decoder's step -/

/-- Settles O22: the step is the decoder's, by the empty schedule or by the event, and the decoder's
step is the token. -/
theorem stepRunsTheDecodedToken : Obligations.StepRunsTheDecodedToken := by
  intro i s hwf hrun hholds hend
  refine ⟨fun hsched => ?_, fun rest hsched => ?_⟩
  · exact (step_of_idle_schedule hsched hrun).trans (decoderStep_eq_exec hwf hrun hholds hend)
  · exact (step_of_schedule hsched).trans (decoderStep_eq_exec hwf hrun hholds hend)

/-- Settles O23: the decoder's step at the end of the stream. -/
theorem decoderRunEndsDone : Obligations.DecoderRunEndsDone :=
  fun _ hrun hsched hend => (step_of_idle_schedule hsched hrun).trans (decoderStep_of_le hrun hend)

/-- Settles O28: from a good state the decoder answers, and with stream left its answer is a token's
appends or an error, each of which consumes bytes that the buffer holds. -/
theorem tokenStepsConsumeStream : Obligations.TokenStepsConsumeStream := by
  intro s hinv hrun hsched hi
  obtain ⟨t, ht⟩ := decoderStep_answers hinv
  refine ⟨t, (step_of_idle_schedule hsched hrun).trans ht, ?_⟩
  rcases decoderStep_cases ht with ⟨hstop, -⟩ | ⟨-, hend, -⟩ | ⟨-, -, d', rfl,
    ⟨len, bs, hlen, -, r, rfl, -, hin⟩ | ⟨k, err, cause, first, r, -, hk, hin, rfl⟩⟩
  · exact absurd hrun hstop
  · omega
  · have hstatus : (s.dec.afterAppend len bs r).port.status = .run := hrun
    exact ⟨Nat.lt_add_of_pos_right hlen, hin hi, rfl, by simp [hstatus], by simp [hstatus]⟩
  · exact ⟨Nat.lt_add_of_pos_right hk, hin hi, rfl, nofun, nofun⟩

end Sys2Proof.Machine
end

section
/-! SUPPORT. The decoding function (R86) by the kind of its token, what its loop can answer, and that a
token of the machine computes one iteration of it. -/

namespace Sys2Proof.Machine

open Sys2Proof

/-! ### One iteration, by the first byte -/

section Kinds

variable {cap : Option Nat} {stream out : List Byte} {i : Nat} {c : Byte}

theorem decodeToken_of_litByte (h : c.toNat = 0 ∨ (9 ≤ c.toNat ∧ c.toNat ≤ 0x7F)) :
    decodeToken cap stream i c out = decodeAppend cap i 1 [c] out := by
  rw [decodeToken, if_neg (by omega), if_pos (by omega)]

theorem decodeToken_of_runByte (h : 1 ≤ c.toNat ∧ c.toNat ≤ 8) :
    decodeToken cap stream i c out =
      if stream.length - (i + 1) < c.toNat then .error ⟨.corruptStream, .truncRun, i, out.length⟩
      else decodeAppend cap i (1 + c.toNat) ((stream.drop (i + 1)).take c.toNat) out := by
  rw [decodeToken, if_pos h]

theorem decodeToken_of_spairByte (h : 0xC0 ≤ c.toNat) :
    decodeToken cap stream i c out = decodeAppend cap i 1 [Config.space, c ^^^ 0x80#8] out := by
  rw [decodeToken, if_neg (by omega), if_neg (by omega), if_pos h]

theorem decodeToken_of_lastBrefByte (h : 0x80 ≤ c.toNat ∧ c.toNat ≤ 0xBF)
    (hlast : stream[i + 1]? = none) :
    decodeToken cap stream i c out = .error ⟨.corruptStream, .truncBref, i, out.length⟩ := by
  rw [decodeToken, if_neg (by omega), if_neg (by omega), if_neg (by omega), hlast]

theorem decodeToken_of_brefBytes {b : Byte} (h : 0x80 ≤ c.toNat ∧ c.toNat ≤ 0xBF)
    (hb : stream[i + 1]? = some b) :
    decodeToken cap stream i c out = decodeBrefToken cap i c b out := by
  rw [decodeToken, if_neg (by omega), if_neg (by omega), if_neg (by omega), hb]

/-! ### Its errors -/

theorem decodeAppend_error {len : Nat} {bytes : List Byte} {e : CodecError}
    (h : decodeAppend cap i len bytes out = .error e) :
    fits cap (out.length + bytes.length) = false := by
  unfold decodeAppend at h
  split at h
  · cases h
  · exact Bool.eq_false_iff.2 ‹_›

theorem decodeBrefToken_error {b : Byte} {e : CodecError}
    (h : decodeBrefToken cap i c b out = .error e) :
    e.err = .corruptStream ∨
      fits cap (out.length + lengthOf (fieldLm3 (tokenValue c b))) = false := by
  unfold decodeBrefToken at h
  dsimp only at h
  split at h
  · cases h; exact .inl rfl
  · split at h
    · cases h; exact .inl rfl
    · split at h
      · cases h
      · exact .inr (Bool.eq_false_iff.2 ‹_›)

/-- A token that raises is corrupt, or its output, at most five bytes for each of its own, finds no room
(R83, R135). -/
theorem decodeToken_error {e : CodecError} (hc : stream[i]? = some c)
    (h : decodeToken cap stream i c out = .error e) :
    e.err = .corruptStream ∨
      ∃ len n, i + len ≤ stream.length ∧ n ≤ 5 * len ∧ fits cap (out.length + n) = false := by
  obtain ⟨hlt, -⟩ := List.getElem?_eq_some_iff.1 hc
  rcases firstByte_cases c with hlit | hrun | hbref | hspair
  · rw [decodeToken_of_litByte hlit] at h
    exact .inr ⟨1, 1, hlt, by omega, decodeAppend_error h⟩
  · rw [decodeToken_of_runByte hrun] at h
    split at h
    · cases h; exact .inl rfl
    · refine .inr ⟨1 + c.toNat, _, by omega, ?_, decodeAppend_error h⟩
      rw [List.length_take]
      omega
  · cases hb : stream[i + 1]? with
    | none => rw [decodeToken_of_lastBrefByte hbref hb] at h; cases h; exact .inl rfl
    | some b =>
      obtain ⟨hlt1, -⟩ := List.getElem?_eq_some_iff.1 hb
      obtain ⟨-, h10⟩ := lengthOf_lt (fieldLm3 (tokenValue c b))
      rw [decodeToken_of_brefBytes hbref hb] at h
      exact (decodeBrefToken_error h).imp_right fun hfull => ⟨2, _, hlt1, by omega, hfull⟩
  · rw [decodeToken_of_spairByte hspair] at h
    exact .inr ⟨1, 2, hlt, by omega, decodeAppend_error h⟩

/-! ### The loop -/

theorem decodeLoop_of_none (h : stream[i]? = none) (fuel : Nat) :
    decodeLoop cap stream fuel i out = .ok out := by
  cases fuel with
  | zero => rfl
  | succ fuel => rw [decodeLoop, h]

theorem decodeLoop_of_ok {next : Nat × List Byte} (hc : stream[i]? = some c)
    (h : decodeToken cap stream i c out = .ok next) (fuel : Nat) :
    decodeLoop cap stream (fuel + 1) i out = decodeLoop cap stream fuel next.1 next.2 := by
  simp only [decodeLoop, hc, h, Except.bind]

theorem decodeLoop_of_error {e : CodecError} (hc : stream[i]? = some c)
    (h : decodeToken cap stream i c out = .error e) (fuel : Nat) :
    decodeLoop cap stream (fuel + 1) i out = .error e := by
  simp only [decodeLoop, hc, h, Except.bind]

/-- The loop ends where the output is at most five times the stream consumed (R83): with that output, or
with the error of the token there. -/
theorem decodeLoop_ends (fuel : Nat) (hi : i ≤ stream.length) (hout : out.length ≤ 5 * i) :
    ∃ i' out', i' ≤ stream.length ∧ out'.length ≤ 5 * i' ∧
      (decodeLoop cap stream fuel i out = .ok out' ∨
        ∃ c e, stream[i']? = some c ∧ decodeToken cap stream i' c out' = .error e ∧
          decodeLoop cap stream fuel i out = .error e) := by
  induction fuel generalizing i out with
  | zero => exact ⟨i, out, hi, hout, .inl rfl⟩
  | succ fuel ih =>
    cases hc : stream[i]? with
    | none => exact ⟨i, out, hi, hout, .inl (decodeLoop_of_none hc _)⟩
    | some c =>
      cases htok : decodeToken cap stream i c out with
      | error e => exact ⟨i, out, hi, hout, .inr ⟨c, e, hc, htok, decodeLoop_of_error hc htok fuel⟩⟩
      | ok next =>
        obtain ⟨hlt, hle, hlen⟩ := decodeToken_ok hc htok
        rw [decodeLoop_of_ok hc htok]
        exact ih hle (by omega)

end Kinds

/-! ### A token of the machine -/

/-- The token's body answers as the iteration of R86 does: with its appends, or with its error. -/
def Decoder.TokenAnswer (d : Decoder) (x : Except Fault Decoder) :
    Except CodecError (Nat × List Byte) → Prop
  | .ok next => ∃ len bs r, x = .ok (d.afterAppend len bs r) ∧
      next = (d.i + len, Memory.bytes d.out ++ bs)
  | .error e => ∃ k first r, x = .ok (d.afterRaise k e.err e.cause first r) ∧
      e.pos = d.i ∧ e.filled = d.o

section Token

variable {p : Config.Params} {d : Decoder} {c : Byte}

/-- A body that appends its bytes where there is room computes `decodeAppend`. -/
theorem Decoder.tokenAnswer_decodeAppend {len : Nat} {bs : List Byte} {first : Byte}
    {r : DecLatches} {x : Except Fault Decoder} (hout : Buffer d.out d.o)
    (hx : x = if fits p.outCap (d.o + bs.length) then .ok (d.afterAppend len bs r)
      else .ok (d.afterRaise 1 .outOfMemory .none first r)) :
    d.TokenAnswer x (decodeAppend p.outCap d.i len bs (Memory.bytes d.out)) := by
  rw [decodeAppend, hout.length_bytes]
  split at hx
  · rw [if_pos ‹_›]
    exact ⟨len, bs, r, hx, rfl⟩
  · rw [if_neg ‹_›]
    exact ⟨1, first, r, hx, rfl, rfl⟩

/-- BREF computes `decodeBrefToken`: the same checks in the same order, and the copy (R89, R90). -/
theorem Decoder.tokenAnswer_decodeBrefToken (hout : Buffer d.out d.o) (hi : d.i + 1 < d.inLen)
    (b : Byte) :
    d.TokenAnswer
      (d.brefBody p (fieldDistance (tokenValue c b)) (fieldLm3 (tokenValue c b)))
      (decodeBrefToken p.outCap d.i c b (Memory.bytes d.out)) := by
  obtain ⟨r, r1, r2, -, hbody⟩ :=
    Decoder.brefBody_eq p (fieldDistance (tokenValue c b)) (fieldLm3 (tokenValue c b)) d
  dsimp only at hbody
  rw [if_neg (Nat.not_le.2 hi)] at hbody
  unfold decodeBrefToken
  dsimp only
  rw [hout.length_bytes]
  split
  · rw [if_pos ‹_›] at hbody
    exact ⟨2, _, r2, hbody, rfl, rfl⟩
  · rw [if_neg ‹_›] at hbody
    split
    · rw [if_pos ‹_›] at hbody
      exact ⟨2, _, r2, hbody, rfl, rfl⟩
    · rw [if_neg ‹_›] at hbody
      split
      · obtain ⟨bs, r', hcopied, -, hbytes⟩ := Decoder.brefBody_copies p
          (fieldDistance (tokenValue c b)) (fieldLm3 (tokenValue c b)) hout hi (by omega)
          (by omega) ‹_›
        exact ⟨2, bs, r', hcopied, by rw [hbytes]⟩
      · rw [if_neg ‹_›] at hbody
        exact ⟨2, _, r2, hbody, rfl, rfl⟩

theorem tokenLength_pos (c : Byte) : 1 ≤ tokenLength c := by
  unfold tokenLength
  split
  · omega
  · split
    · omega
    · split <;> omega

/-- The fetch of a token that lies inside the buffer (R41, R63). -/
theorem Decoder.fetch_of_buffer (hin : Buffer d.input d.inLen)
    (hc : (Memory.bytes d.input)[d.i]? = some c) (hend : d.i + tokenLength c ≤ d.inLen) :
    d.fetch =
      .ok (c :: ((Memory.bytes d.input).drop (d.i + 1)).take (tokenLength c - 1)) := by
  obtain ⟨hlt, hget⟩ := List.getElem?_eq_some_iff.1 hc
  obtain ⟨n, hn⟩ : ∃ n, tokenLength c = n + 1 := Nat.exists_eq_add_of_le' (tokenLength_pos c)
  have hslice : ((Memory.bytes d.input).drop d.i).take (tokenLength c) =
      c :: ((Memory.bytes d.input).drop (d.i + 1)).take (tokenLength c - 1) := by
    rw [hn, List.drop_eq_getElem_cons hlt, List.take_succ_cons, hget, Nat.add_sub_cancel]
  have hlen : (((Memory.bytes d.input).drop d.i).take (tokenLength c)).length = tokenLength c := by
    rw [List.length_take, List.length_drop, hin.length_bytes]
    omega
  have hholds := hin.holdsAt_slice d.i (tokenLength c)
  rw [hslice] at hlen hholds
  exact Decoder.fetch_of_holdsAt hholds (by omega) hlen.symm

/-- A token of one byte is fetched whole. -/
theorem Decoder.fetch_of_single (hin : Buffer d.input d.inLen)
    (hc : (Memory.bytes d.input)[d.i]? = some c) (hi : d.i < d.inLen) (hlen : tokenLength c = 1) :
    d.fetch = .ok [c] := by
  rw [Decoder.fetch_of_buffer hin hc (by omega), hlen]
  rfl

section Good

variable (hin : Buffer d.input d.inLen) (hout : Buffer d.out d.o)
  (hc : (Memory.bytes d.input)[d.i]? = some c) (hi : d.i < d.inLen)
include hin hout hc hi

/-- RUN computes its iteration: truncated it raises, else it appends its payload. -/
theorem Decoder.tokenAnswer_of_runByte (h : 1 ≤ c.toNat ∧ c.toNat ≤ 8) :
    d.TokenAnswer (d.fetchAndRun p)
      (decodeToken p.outCap (Memory.bytes d.input) d.i c (Memory.bytes d.out)) := by
  have htl := tokenLength_of_runByte h
  rw [decodeToken_of_runByte h, hin.length_bytes, hout.length_bytes, Decoder.fetchAndRun]
  split
  · rename_i hcut
    rw [Decoder.fetch_of_truncated (hin.read_eq _ ▸ hc) hi (by omega)]
    have hdecode : decode [c] = .error (.truncRun c) :=
      (decode_of_runByte [] h).trans (decodeRun_of_lt h.1)
    simp only [Except.bind, Decoder.fetchedBody, hdecode]
    exact ⟨1, c, _, rfl, rfl, rfl⟩
  · rename_i hfit
    rw [Decoder.fetch_of_buffer hin hc (by omega), htl, Nat.add_sub_cancel_left]
    have hlen : (((Memory.bytes d.input).drop (d.i + 1)).take c.toNat).length = c.toNat := by
      rw [List.length_take, List.length_drop, hin.length_bytes]
      omega
    generalize ((Memory.bytes d.input).drop (d.i + 1)).take c.toNat = payload at hlen ⊢
    have hdecode : decode (c :: payload) = .ok (.run payload, []) := by
      rw [decode_of_runByte _ h, decodeRun_of_le hlen.ge, ← hlen, List.take_length,
        List.drop_length]
    obtain ⟨r, hbody⟩ := Decoder.runBody_eq p payload d
    rw [if_neg (by omega)] at hbody
    simp only [Except.bind, Decoder.fetchedBody, hdecode, ← hlen]
    exact Decoder.tokenAnswer_decodeAppend hout hbody

/-- BREF computes its iteration: at the last byte it raises, else its two bytes are the token. -/
theorem Decoder.tokenAnswer_of_brefByte (h : 0x80 ≤ c.toNat ∧ c.toNat ≤ 0xBF) :
    d.TokenAnswer (d.fetchAndRun p)
      (decodeToken p.outCap (Memory.bytes d.input) d.i c (Memory.bytes d.out)) := by
  have htl := tokenLength_of_brefByte h
  have hlen := hin.length_bytes
  cases hb : (Memory.bytes d.input)[d.i + 1]? with
  | none =>
    have hlast := List.getElem?_eq_none_iff.1 hb
    rw [decodeToken_of_lastBrefByte h hb, hout.length_bytes, Decoder.fetchAndRun,
      Decoder.fetch_of_truncated (hin.read_eq _ ▸ hc) hi (by omega)]
    simp only [Except.bind, Decoder.fetchedBody, decode_of_brefByte [] h, decodeBref_nil]
    exact ⟨1, c, _, rfl, rfl, rfl⟩
  | some b =>
    obtain ⟨hlt, hget⟩ := List.getElem?_eq_some_iff.1 hb
    have hrest : ((Memory.bytes d.input).drop (d.i + 1)).take (2 - 1) = [b] := by
      rw [List.drop_eq_getElem_cons hlt, hget]
      rfl
    rw [decodeToken_of_brefBytes h hb, Decoder.fetchAndRun,
      Decoder.fetch_of_buffer hin hc (by omega), htl, hrest]
    simp only [Except.bind, Decoder.fetchedBody, decode_of_brefByte [b] h, decodeBref_cons]
    exact Decoder.tokenAnswer_decodeBrefToken hout (by omega) b

/-- The token at `i` computes one iteration of the decoding function (R74, R86). -/
theorem Decoder.tokenAnswer_decodeToken :
    d.TokenAnswer (d.fetchAndRun p)
      (decodeToken p.outCap (Memory.bytes d.input) d.i c (Memory.bytes d.out)) := by
  rcases firstByte_cases c with hlit | hrun | hbref | hspair
  · obtain ⟨r, hbody⟩ := Decoder.litBody_eq p c d
    rw [decodeToken_of_litByte hlit, Decoder.fetchAndRun,
      Decoder.fetch_of_single hin hc hi (tokenLength_of_litByte hlit)]
    simp only [Except.bind, Decoder.fetchedBody, decode_of_litByte [] hlit]
    exact Decoder.tokenAnswer_decodeAppend hout hbody
  · exact Decoder.tokenAnswer_of_runByte hin hout hc hi hrun
  · exact Decoder.tokenAnswer_of_brefByte hin hout hc hi hbref
  · obtain ⟨r, hbody⟩ := Decoder.spairBody_eq p (fieldQ c) d
    rw [spair_fieldQ c hspair] at hbody
    rw [decodeToken_of_spairByte hspair, Decoder.fetchAndRun,
      Decoder.fetch_of_single hin hc hi (tokenLength_of_spairByte hspair)]
    simp only [Except.bind, Decoder.fetchedBody, decode_of_spairByte [] hspair]
    exact Decoder.tokenAnswer_decodeAppend hout hbody

end Good

end Token

/-! ### A run of the machine -/

/-- What the host finds when a call of the decoder has ended (R29, R73, R86, R137): DONE with the result
and its length, or ERR with the error and an OUT_LEN of 0. -/
def DecodeAnswer (d : Decoder) : Except CodecError (List Byte) → Prop
  | .ok bytes => d.port.status = .done ∧ d.readResult = some bytes ∧ d.readOutLen = some bytes.length
  | .error e => d.port.status = .err ∧ d.port.err = e.err ∧ d.port.errInfo.cause = e.cause ∧
      d.port.errInfo.pos = e.pos ∧ d.port.errInfo.filled = e.filled ∧ d.readOutLen = some 0

/-- A call that has been answered has ended. -/
theorem DecodeAnswer.status {d : Decoder} {x : Except CodecError (List Byte)}
    (h : DecodeAnswer d x) : d.port.status = .done ∨ d.port.status = .err := by
  cases x with
  | ok bytes => exact .inl h.1
  | error e => exact .inr h.1

theorem runSteps_succ_of_step {s t : State} (h : step s = .next t) (n : Nat) :
    runSteps (n + 1) s = runSteps n t := by
  rw [runSteps, h]

/-- From a good running state with no event to come the machine ends the call with what the loop of R86
answers from there, in at most one step for each byte left and one more (R82). -/
theorem decoderRun_computes_decodeLoop (fuel : Nat) {s : State} (hinv : DecInv s.params s.dec)
    (hrun : s.dec.port.status = .run) (hsched : s.schedule = [])
    (hfuel : s.dec.inLen < fuel + s.dec.i) :
    ∃ n t, n ≤ s.dec.inLen - s.dec.i + 1 ∧ runSteps n s = .next t ∧ t.enc = s.enc ∧
      DecodeAnswer t.dec (decodeLoop s.params.outCap (Memory.bytes s.dec.input) fuel s.dec.i
        (Memory.bytes s.dec.out)) := by
  induction fuel generalizing s with
  | zero =>
    have := hinv.cursor
    omega
  | succ fuel ih =>
    have hlen := hinv.input.length_bytes
    cases hc : (Memory.bytes s.dec.input)[s.dec.i]? with
    | none =>
      have hend := List.getElem?_eq_none_iff.1 hc
      have hstep := (step_of_idle_schedule hsched hrun).trans (decoderStep_of_le hrun (by omega))
      rw [decodeLoop_of_none hc]
      exact ⟨1, _, by omega, runSteps_succ_of_step hstep 0, rfl, rfl,
        Port.readResult_of_done hinv.out rfl⟩
    | some c =>
      obtain ⟨hi, -⟩ := List.getElem?_eq_some_iff.1 hc
      rw [hlen] at hi
      have hstep := (step_of_idle_schedule hsched hrun).trans (decoderStep_of_lt hrun hi)
      have hanswer := Decoder.tokenAnswer_decodeToken (p := s.params) hinv.input hinv.out hc hi
      cases htok : decodeToken s.params.outCap (Memory.bytes s.dec.input) s.dec.i c
          (Memory.bytes s.dec.out) with
      | error e =>
        rw [htok] at hanswer
        obtain ⟨k, first, r, hbody, hpos, hfilled⟩ := hanswer
        rw [hbody, State.answerDecoder_ok] at hstep
        rw [decodeLoop_of_error hc htok]
        exact ⟨1, _, by omega, runSteps_succ_of_step hstep 0, rfl, rfl, rfl, rfl, hpos.symm,
          hfilled.symm, rfl⟩
      | ok next =>
        obtain ⟨hlt, hle, -⟩ := decodeToken_ok hc htok
        rw [decodeLoop_of_ok hc htok]
        rw [htok] at hanswer
        obtain ⟨len, bs, r, hbody, rfl⟩ := hanswer
        rw [hbody, State.answerDecoder_ok] at hstep
        have hinv' := stepKeepsDecoderInvariants _ _ hinv hstep
        have hbytes : Memory.bytes (s.dec.afterAppend len bs r).release.out =
            Memory.bytes s.dec.out ++ bs := hinv.out.bytes_writeAll bs
        obtain ⟨n, t, hn, hsteps, henc, hans⟩ := ih hinv' hrun hsched
          (show s.dec.inLen < fuel + (s.dec.i + len) by omega)
        have hn' : n ≤ s.dec.inLen - (s.dec.i + len) + 1 := hn
        rw [hbytes] at hans
        exact ⟨n + 1, t, by omega, (runSteps_succ_of_step hstep n).trans hsteps, henc, hans⟩

end Sys2Proof.Machine
end

section
/-! PROOFS. The decoder as a function: every call ends, with the answer of R86, and within five times
the stream. -/

namespace Sys2Proof.Machine

open Sys2Proof

/-- Settles O29: the run computes the loop of R86, and so is answered within the bound. -/
theorem decoderCallEnds : Obligations.DecoderCallEnds := by
  intro s hinv hrun hsched
  obtain ⟨n, t, hn, hsteps, henc, hans⟩ :=
    decoderRun_computes_decodeLoop (s.dec.inLen + 1) hinv hrun hsched (by omega)
  exact ⟨n, t, hn, hsteps, hans.status, henc⟩

/-- Settles O40: START makes a good running state, from which the run computes the loop of R86 from its
start. -/
theorem decoderComputesDecode : Obligations.DecoderComputesDecode := by
  intro s buffer hsched hstop hok
  have hstep : step s = .next { s with dec := .launched buffer s.dec.draws, schedule := [] } := by
    simp [step_of_schedule hsched, runEvent, hostStart, Decoder.start_of_launchOk hstop hok]
  obtain ⟨n, t, hn, hsteps, henc, hans⟩ :=
    decoderRun_computes_decodeLoop (buffer.length + 1)
      (s := { s with dec := .launched buffer s.dec.draws, schedule := [] })
      (decInv_launched hok s.dec.draws) rfl rfl (Nat.lt_succ_self _)
  have hn' : n ≤ buffer.length - 0 + 1 := hn
  have hstream : Memory.bytes (Decoder.launched buffer s.dec.draws).input = buffer :=
    Memory.bytes_ofBytes buffer
  rw [hstream] at hans
  exact ⟨n + 1, t, by omega, (runSteps_succ_of_step hstep n).trans hsteps, henc, hans⟩

/-- Settles O44: where the loop ends the output is at most five times the stream consumed; an error there
that is not CorruptStream would need more than five times the whole. -/
theorem decodingAtMostQuintuples : Obligations.DecodingAtMostQuintuples := by
  intro stream cap hroom
  obtain ⟨i, out, hi, hout, hok | ⟨c, e, hc, htok, herr⟩⟩ :=
    decodeLoop_ends (cap := cap) (out := []) (stream.length + 1) (Nat.zero_le _)
      (Nat.le_refl (5 * 0))
  · rw [decodeFn, hok]
    dsimp only
    omega
  · rw [decodeFn, herr]
    rcases decodeToken_error hc htok with hcorrupt | ⟨len, n, hend, hn, hfull⟩
    · exact hcorrupt
    · have hfits := fits_mono hroom (show out.length + n ≤ 5 * stream.length by omega)
      exact absurd hfits (Bool.eq_false_iff.1 hfull)

end Sys2Proof.Machine
end

section
/-! SUPPORT. The copy as a pattern repeated (R91). -/

namespace Sys2Proof.Machine

open Sys2Proof

/-- Each byte of a copy is a byte of the `dist` bytes before it, taken in turn (R91): steps of `dist` back
lead from any byte of the copy into the pattern. -/
theorem copyBytes_getElem?_mod {dist n k : Nat} {out : List Byte} (h1 : 1 ≤ dist)
    (h2 : dist ≤ out.length) (hk : k < n) :
    (copyBytes dist n out)[out.length + k]? = out[out.length - dist + k % dist]? := by
  induction k using Nat.strong_induction_on with
  | _ k ih =>
    rw [copyBytes_getElem? h1 h2 hk]
    rcases Nat.lt_or_ge k dist with hlt | hge
    · obtain ⟨rest, hrest⟩ := prefix_copyBytes dist n out
      rw [Nat.mod_eq_of_lt hlt, Nat.sub_add_comm h2, ← hrest,
        List.getElem?_append_left (by omega)]
    · rw [Nat.mod_eq_sub_mod hge, Nat.add_sub_assoc hge]
      exact ih (k - dist) (by omega) (by omega)

/-- The same of the bytes that a copy at the end of a buffer appends. -/
theorem Buffer.getElem?_copied {m : Memory} {o dist n k : Nat} {bs : List Byte} (hb : Buffer m o)
    (h1 : 1 ≤ dist) (h2 : dist ≤ o)
    (hcopy : copyBytes dist n (Memory.bytes m) = Memory.bytes m ++ bs) (hk : k < n) :
    bs[k]? = Memory.read m (o - dist + k % dist) := by
  have hpattern := copyBytes_getElem?_mod h1 (hb.length_bytes.symm ▸ h2) hk
  rwa [hcopy, List.getElem?_append_right (Nat.le_add_right _ _), Nat.add_sub_cancel_left,
    hb.length_bytes, ← hb.read_eq] at hpattern

end Sys2Proof.Machine
end

section
/-! PROOFS. The copy engine: what BREF appends, and its checks. -/

namespace Sys2Proof.Machine

open Sys2Proof

/-- Settles O17: BREF appends the bytes of the copy of R86, which repeat the pattern. -/
theorem brefRepeatsThePattern : Obligations.BrefRepeatsThePattern := by
  intro distance lm3 s hb hi h1 h2 hf
  obtain ⟨bs, r, hbody, hlen, hcopy⟩ := Decoder.brefBody_copies s.params distance lm3 hb hi h1 h2 hf
  obtain ⟨t, ht, hdone⟩ := exec_done_of_body (i := .bref distance lm3) hbody
  exact ⟨t, bs, ht, hdone, hlen, fun _ hk => hb.getElem?_copied h1 h2 hcopy hk⟩

/-- Settles O19: BREF's body at each of its checks, those before it passed (R135). -/
theorem brefChecksInOrder : Obligations.BrefChecksInOrder := by
  intro distance lm3 s
  obtain ⟨r, r1, r2, -, hbody⟩ := Decoder.brefBody_eq s.params distance lm3 s.dec
  dsimp only at hbody
  refine ⟨fun hcut => ?_, fun hin hzero => ?_, fun hin hfar => ?_, fun hin h1 h2 hfull => ?_⟩
  · rw [if_pos hcut] at hbody
    exact exec_raises_of_body hbody
  · rw [if_neg (Nat.not_le.2 hin), if_pos hzero] at hbody
    exact exec_raises_of_body hbody
  · rw [if_neg (Nat.not_le.2 hin), if_neg (Nat.ne_zero_of_lt hfar), if_pos hfar] at hbody
    exact exec_raises_of_body hbody
  · rw [if_neg (Nat.not_le.2 hin), if_neg (Nat.ne_zero_of_lt h1), if_neg (Nat.not_lt.2 h2),
      if_neg (Bool.eq_false_iff.1 hfull)] at hbody
    exact exec_raises_of_body hbody

end Sys2Proof.Machine
end

section
/-! SUPPORT. The match search in words (R99 to R103), and its micro-steps over the registers (R108). -/

namespace Sys2Proof.Machine

open Sys2Proof

/-! ### The search in words -/

/-- Inside the margin `ref_match` is the length loop (R99, R100). -/
theorem refMatch_eq_some_iff {raw : Memory} {n i : Nat} {m : Nat × Nat} :
    refMatch raw n i = some m ↔
      (10 ≤ i ∧ 10 ≤ n - i) ∧ searchLengths raw i 8 = some m := by
  rw [← marginOk_iff]
  exact Option.ite_none_right_eq_some

theorem refMatch_of_margin {raw : Memory} {n i : Nat} (hi : 10 ≤ i) (hn : 10 ≤ n - i) :
    refMatch raw n i = searchLengths raw i 8 :=
  if_pos (marginOk_iff.2 ⟨hi, hn⟩)

section Words

variable {raw : Memory} {n i L : Nat}

/-- The candidates of the scan are the positions from `lo` on whose window ends before the cursor
(R101), and the compare tells whether the window there is the one at the cursor (R102). -/
theorem occursAt_iff {j : Nat} (hb : Buffer raw n) (hn : i + L ≤ n) (hL : L ≤ i) :
    OccursAt raw i j L ↔
      scanLow i ≤ j ∧ j < scanLow i + (i - L + 1 - scanLow i) ∧ windowEq raw j i L = true := by
  have hlow : scanLow i = i - 2047 := rfl
  unfold OccursAt
  constructor
  · intro ⟨hlo, hj, hsame⟩
    exact ⟨hlo, by omega, (windowEq_iff hb (by omega) hn).2 hsame⟩
  · intro ⟨hlo, hj, hwin⟩
    exact ⟨hlo, by omega, (windowEq_iff hb (by omega) hn).1 hwin⟩

/-- The scan's hit for one length is its nearest occurrence (R101). -/
theorem scanLength_some {j : Nat} (hb : Buffer raw n) (hn : i + L ≤ n) (hL : L ≤ i)
    (h : scanLength raw i L = some j) :
    OccursAt raw i j L ∧ ∀ j', j < j' → ¬ OccursAt raw i j' L := by
  obtain ⟨hlo, hj, hwin, hnearest⟩ := scanBack_some h
  refine ⟨(occursAt_iff hb hn hL).2 ⟨hlo, hj, hwin⟩, fun j' hlt hocc => ?_⟩
  obtain ⟨-, hj', hwin'⟩ := (occursAt_iff hb hn hL).1 hocc
  exact Bool.false_ne_true ((hnearest j' hlt hj').symm.trans hwin')

/-- Without a hit the length occurs nowhere in the window. -/
theorem scanLength_none (hb : Buffer raw n) (hn : i + L ≤ n) (hL : L ≤ i)
    (h : scanLength raw i L = none) (j : Nat) : ¬ OccursAt raw i j L := by
  intro hocc
  obtain ⟨hlo, hj, hwin⟩ := (occursAt_iff hb hn hL).1 hocc
  exact Bool.false_ne_true ((scanBack_none h j hlo hj).symm.trans hwin)

end Words

/-! ### The search in micro-steps -/

/-- `n` micro-steps after `m` are `m + n`. -/
theorem searchRun_add (raw : Memory) (i m n : Nat) (r : EncLatches) :
    searchRun raw i (m + n) r = searchRun raw i n (searchRun raw i m r) := by
  induction m generalizing r with
  | zero => rw [Nat.zero_add]; rfl
  | succ m ih => rw [Nat.succ_add]; exact ih _

/-- Some number of micro-steps leads from `r` to `r'`. -/
def SearchReaches (raw : Memory) (i : Nat) (r r' : EncLatches) : Prop :=
  ∃ n, searchRun raw i n r = r'

/-- The registers of a search for length `L` at the candidate `j`, with `k` byte pairs compared. -/
def searchAt (L j k : Nat) (r : EncLatches) : EncLatches :=
  { r with L := BitVec.ofNat 4 L, j := j, k := BitVec.ofNat 4 k, found := false }

/-- The registers after the scan for length `L`: its hit found, or the start of the next length (R108). -/
def searchAfterScan (i L : Nat) (r : EncLatches) : Option Nat → EncLatches
  | some j => { searchAt L j L r with found := true }
  | none => searchAt (L - 1) (i - (L - 1)) 0 r

section Micro

variable {raw : Memory} {i L j : Nat}

theorem SearchReaches.refl (r : EncLatches) : SearchReaches raw i r r := ⟨0, rfl⟩

theorem SearchReaches.single {r r' : EncLatches} (h : searchMicro raw i r = r') :
    SearchReaches raw i r r' := ⟨1, h⟩

theorem SearchReaches.trans {r r' r'' : EncLatches} (h : SearchReaches raw i r r')
    (h' : SearchReaches raw i r' r'') : SearchReaches raw i r r'' := by
  obtain ⟨m, rfl⟩ := h
  obtain ⟨n, rfl⟩ := h'
  exact ⟨m + n, searchRun_add raw i m n r⟩

/-- The 4 bits of `L` and of `k` hold every length and every count of a search (R23). -/
theorem toNat_ofNat_of_le_lenMax {x : Nat} (h : x ≤ 10) : (BitVec.ofNat 4 x).toNat = x := by
  rw [BitVec.toNat_ofNat]
  omega

theorem searchEnded_searchAt (hL : L ≤ 10) (k : Nat) (r : EncLatches) :
    searchEnded (searchAt L j k r) = decide (L < 3) := by
  simp only [searchEnded, searchAt, toNat_ofNat_of_le_lenMax hL, Bool.false_or]
  rfl

section Compare

variable {k : Nat} (h3 : 3 ≤ L) (h10 : L ≤ 10) (r : EncLatches)

include h3 h10

theorem searchEnded_searchAt_of_le : searchEnded (searchAt L j k r) = false := by
  rw [searchEnded_searchAt h10]
  exact decide_eq_false (Nat.not_lt.2 h3)

/-- With all pairs equal the match is found. -/
theorem searchMicro_found :
    searchMicro raw i (searchAt L j L r) = { searchAt L j L r with found := true } := by
  rw [searchMicro, searchEnded_searchAt_of_le h3 h10, if_neg Bool.false_ne_true]
  exact if_pos rfl

/-- A micro-step that compares a pair of bytes: on to the next pair, the next candidate, or the next
length. -/
theorem searchMicro_compare (hk : k < L) :
    searchMicro raw i (searchAt L j k r) =
      if sameByte raw (j + k) (i + k) then searchAt L j (k + 1) r
      else if j = scanLow i then searchAt (L - 1) (i - (L - 1)) 0 r
      else searchAt L (j - 1) 0 r := by
  have hkn : (searchAt L j k r).k.toNat = k := toNat_ofNat_of_le_lenMax (by omega)
  have hLn : (searchAt L j k r).L.toNat = L := toNat_ofNat_of_le_lenMax h10
  have hne : (searchAt L j k r).k ≠ (searchAt L j k r).L := fun h => by
    rw [← BitVec.toNat_inj, hkn, hLn] at h
    omega
  have hsucc : BitVec.ofNat 4 k + 1 = BitVec.ofNat 4 (k + 1) := (BitVec.ofNat_add k 1).symm
  have hpred : BitVec.ofNat 4 L - 1 = BitVec.ofNat 4 (L - 1) := by
    apply BitVec.eq_of_toNat_eq
    rw [BitVec.toNat_sub, toNat_ofNat_of_le_lenMax h10, toNat_ofNat_of_le_lenMax (by omega)]
    simp
    omega
  rw [searchMicro, searchEnded_searchAt_of_le h3 h10, if_neg Bool.false_ne_true, if_neg hne, hkn, hLn]
  simp only [searchAt, hsucc, hpred]
  rfl

/-- As long as the pairs are equal the compare goes on. -/
theorem searchReaches_of_windowEq (hk : k ≤ L) (hwin : windowEq raw j i k = true) :
    SearchReaches raw i (searchAt L j 0 r) (searchAt L j k r) := by
  induction k with
  | zero => exact .refl _
  | succ k ih =>
    obtain ⟨hwin, hsame⟩ := Bool.and_eq_true_iff.1 hwin
    exact (ih (by omega) hwin).trans (.single (by rw [searchMicro_compare h3 h10 r hk, if_pos hsame]))

end Compare

/-- Windows that differ have a first pair that does. -/
theorem exists_first_difference (h : windowEq raw j i L = false) :
    ∃ k, k < L ∧ windowEq raw j i k = true ∧ sameByte raw (j + k) (i + k) = false := by
  induction L with
  | zero => cases h
  | succ L ih =>
    cases hwin : windowEq raw j i L with
    | true =>
      rw [windowEq, hwin, Bool.true_and] at h
      exact ⟨L, Nat.lt_succ_self L, hwin, h⟩
    | false =>
      obtain ⟨k, hk, hdiff⟩ := ih hwin
      exact ⟨k, Nat.lt_succ_of_lt hk, hdiff⟩

/-- A candidate whose window is the one at the cursor is found. -/
theorem searchReaches_hit (h3 : 3 ≤ L) (h10 : L ≤ 10) (r : EncLatches)
    (hwin : windowEq raw j i L = true) :
    SearchReaches raw i (searchAt L j 0 r) { searchAt L j L r with found := true } :=
  (searchReaches_of_windowEq h3 h10 r le_rfl hwin).trans (.single (searchMicro_found h3 h10 r))

/-- A candidate whose window differs leads to the next candidate, or at `lo` to the next length. -/
theorem searchReaches_miss (h3 : 3 ≤ L) (h10 : L ≤ 10) (r : EncLatches)
    (hwin : windowEq raw j i L = false) :
    SearchReaches raw i (searchAt L j 0 r)
      (if j = scanLow i then searchAt (L - 1) (i - (L - 1)) 0 r else searchAt L (j - 1) 0 r) := by
  obtain ⟨k, hk, hpre, hdiff⟩ := exists_first_difference hwin
  have hmicro := searchMicro_compare (raw := raw) (i := i) (j := j) h3 h10 r hk
  rw [if_neg (Bool.eq_false_iff.1 hdiff)] at hmicro
  exact (searchReaches_of_windowEq h3 h10 r hk.le hpre).trans (.single hmicro)

/-- From the candidate `n` above `lo` the scan runs to its end (R101). -/
theorem searchReaches_scanBack (h3 : 3 ≤ L) (h10 : L ≤ 10) (r : EncLatches) (n : Nat) :
    SearchReaches raw i (searchAt L (scanLow i + n) 0 r)
      (searchAfterScan i L r (scanBack raw i (scanLow i) L (n + 1))) := by
  rw [scanBack]
  cases hwin : windowEq raw (scanLow i + n) i L with
  | true => exact searchReaches_hit h3 h10 r hwin
  | false =>
    have hmiss := searchReaches_miss h3 h10 r hwin
    rw [if_neg Bool.false_ne_true]
    cases n with
    | zero =>
      rw [if_pos (Nat.add_zero _)] at hmiss
      exact hmiss
    | succ n =>
      rw [if_neg (by omega)] at hmiss
      exact hmiss.trans (searchReaches_scanBack h3 h10 r n)

/-- From the first candidate of length `n + 2` the search runs to its end, with the result of the
length loop (R100). -/
theorem searchReaches_searchLengths {n : Nat} (hn : n ≤ 8) (hi : 10 ≤ i) (r : EncLatches) :
    ∃ r', SearchReaches raw i (searchAt (n + 2) (i - (n + 2)) 0 r) r' ∧
      searchEnded r' = true ∧ searchResult r' = searchLengths raw i n := by
  induction n with
  | zero => exact ⟨_, .refl _, searchEnded_searchAt (by omega) 0 r, rfl⟩
  | succ n ih =>
    have hlow : scanLow i = i - 2047 := rfl
    have hlengths : searchLengths raw i (n + 1) =
        ((scanLength raw i (n + 3)).map fun j => (j, n + 3)).or (searchLengths raw i n) := rfl
    have hscan : SearchReaches raw i (searchAt (n + 3) (i - (n + 3)) 0 r)
        (searchAfterScan i (n + 3) r (scanLength raw i (n + 3))) := by
      have := searchReaches_scanBack (raw := raw) (i := i) (L := n + 3) (by omega) (by omega) r
        (i - (n + 3) - scanLow i)
      rwa [Nat.add_sub_of_le (by omega), ← Nat.sub_add_comm (by omega)] at this
    rw [hlengths]
    cases hhit : scanLength raw i (n + 3) with
    | some j =>
      rw [hhit] at hscan
      have hresult : searchResult (searchAfterScan i (n + 3) r (some j)) = some (j, n + 3) := by
        simp [searchResult, searchAfterScan, searchAt, show (n + 3) % 16 = n + 3 by omega]
      exact ⟨_, hscan, rfl, hresult⟩
    | none =>
      rw [hhit] at hscan
      obtain ⟨r', hreach, hend, hresult⟩ := ih (by omega)
      exact ⟨r', hscan.trans hreach, hend, hresult⟩

end Micro

end Sys2Proof.Machine
end

section
/-! PROOFS. The match search: its value in words, its contract, and its micro-steps. -/

namespace Sys2Proof.Machine

open Sys2Proof

/-- Settles O47: the first length, from 10 down, whose scan hits is the longest that occurs, and the hit
its nearest occurrence. -/
theorem refMatchIsLongestThenNearest : Obligations.RefMatchIsLongestThenNearest := by
  intro raw rawLen i hb
  split
  next j L h =>
    obtain ⟨⟨hi, hn⟩, h⟩ := refMatch_eq_some_iff.1 h
    obtain ⟨h3, h10, hhit, hlonger⟩ := searchLengths_some 8 h
    obtain ⟨hocc, hnearest⟩ := scanLength_some hb (by omega) (by omega) hhit
    exact ⟨hi, hn, h3, by omega, hocc, hnearest, fun L' hlt hle =>
      scanLength_none hb (by omega) (by omega) (hlonger L' hlt (by omega))⟩
  next h =>
    by_cases hmargin : 10 ≤ i ∧ 10 ≤ rawLen - i
    · rw [refMatch_of_margin hmargin.1 hmargin.2] at h
      exact .inr fun L h3 h10 =>
        scanLength_none hb (by omega) (by omega) (searchLengths_none 8 h L h3 (by omega))
    · exact .inl hmargin

/-- Settles O48: the match ends before the cursor, so its distance is at least its length. -/
theorem refMatchMeetsTheContract : Obligations.RefMatchMeetsTheContract := by
  refine ⟨refMatch_contract, fun raw rawLen i j L h => ?_⟩
  obtain ⟨-, -, h3, -, hbefore, hlow⟩ := refMatch_range h
  omega

/-- Settles O49: inside the margin the micro-steps run through the length loop, from its longest
length. -/
theorem searchMicroStepsReachRefMatch : Obligations.SearchMicroStepsReachRefMatch := by
  intro raw rawLen i r _ hi hn
  obtain ⟨r', ⟨n, rfl⟩, hend, hresult⟩ := searchReaches_searchLengths (raw := raw) le_rfl hi r
  exact ⟨n, hend, hresult.trans (refMatch_of_margin hi hn).symm⟩

end Sys2Proof.Machine
end

section
/-! SUPPORT. The step of a running encoder: when it comes, and what it makes of the machine (R98, R105,
R110, R132). -/

namespace Sys2Proof.Machine

open Sys2Proof

/-! ### When the encoder moves -/

section Moving

variable {s : State}

/-- An `.encoder` event is a step of the encoder. -/
theorem step_of_encoder_event {rest : List Event} (h : s.schedule = .encoder :: rest) :
    step s = encoderStep { s with schedule := rest } :=
  step_of_schedule h

/-- With no event to come the encoder moves beside a stopped decoder (log entry 3). -/
theorem step_of_idle_decoder (hsched : s.schedule = []) (hstop : s.dec.port.status ≠ .run) :
    step s = encoderStep s := by
  simp [step, machineStep, hsched, runUnscheduled, hstop]

/-! ### What it does -/

/-- At the end of RAW an encoder step ends the run (R110). -/
theorem encoderStep_of_le (hrun : s.enc.port.status = .run) (hend : s.enc.rawLen ≤ s.enc.i) :
    encoderStep s = .next { s with enc := s.enc.finish } := by
  rw [encoderStep, if_pos hrun, Encoder.stepWith, if_pos hend, State.answerEncoder_ok]

/-- With stream left an encoder step is the token of R124, emitted or refused. -/
theorem encoderStep_eq_afterToken {c : Byte} (hrun : s.enc.port.status = .run)
    (hb : Buffer s.enc.raw s.enc.rawLen) (hc : (Memory.bytes s.enc.raw)[s.enc.i]? = some c) :
    ∃ r n, encoderStep s = .next { s with
      enc := s.enc.afterToken s.params
        (emittedToken refMatch (Memory.bytes s.enc.raw) s.enc.i c) c r n } := by
  obtain ⟨r, n, hstep⟩ := Encoder.stepWith_eq_afterToken (p := s.params) refMatch_contract hb hc
  exact ⟨r, n, by rw [encoderStep, if_pos hrun, hstep, State.answerEncoder_ok]⟩

/-- An encoder that has emitted a token is what `EmissionDone` says (R105, R112 to R114). -/
theorem emissionDone_afterEmit (s : State) (tok : List Byte × Nat) (r : EncLatches) (n : Nat) :
    EmissionDone s { s with enc := s.enc.afterEmit tok r n } tok.2 tok.1 :=
  ⟨rfl, rfl, writeAll_holds _ _ _, writeAll_other _ _ _, rfl, rfl, rfl, rfl, rfl, rfl⟩

/-- An encoder that has raised is what `EmissionRaises` says (R132, R134). -/
theorem emissionRaises_afterFull (s : State) (first : Byte) (r : EncLatches) (n : Nat) :
    EmissionRaises s { s with enc := s.enc.afterFull first r n } first :=
  ⟨rfl, rfl, rfl, rfl, rfl, rfl, rfl, rfl, rfl⟩

/-- A token that fits is emitted. -/
theorem encoderStep_done {c : Byte} (hrun : s.enc.port.status = .run)
    (hb : Buffer s.enc.raw s.enc.rawLen) (hc : (Memory.bytes s.enc.raw)[s.enc.i]? = some c)
    {tok : List Byte × Nat}
    (htok : emittedToken refMatch (Memory.bytes s.enc.raw) s.enc.i c = tok)
    (hfits : fits s.params.codeCap (s.enc.e + tok.1.length) = true) :
    ∃ t, encoderStep s = .next t ∧ EmissionDone s t tok.2 tok.1 := by
  obtain ⟨r, n, hstep⟩ := encoderStep_eq_afterToken hrun hb hc
  rw [htok, Encoder.afterToken, if_pos hfits] at hstep
  exact ⟨_, hstep, emissionDone_afterEmit s tok r n⟩

/-- A token that does not fit raises OutOfMemory. -/
theorem encoderStep_raises {c : Byte} (hrun : s.enc.port.status = .run)
    (hb : Buffer s.enc.raw s.enc.rawLen) (hc : (Memory.bytes s.enc.raw)[s.enc.i]? = some c)
    {tok : List Byte × Nat}
    (htok : emittedToken refMatch (Memory.bytes s.enc.raw) s.enc.i c = tok)
    (hfull : fits s.params.codeCap (s.enc.e + tok.1.length) = false) :
    ∃ t, encoderStep s = .next t ∧ EmissionRaises s t c := by
  obtain ⟨r, n, hstep⟩ := encoderStep_eq_afterToken hrun hb hc
  rw [htok, Encoder.afterToken, if_neg (Bool.eq_false_iff.1 hfull)] at hstep
  exact ⟨_, hstep, emissionRaises_afterFull s c r n⟩

end Moving

/-! ### The back-reference -/

/-- The token of R105 for a match at `j` of length `L`. -/
def brefToken (i j L : Nat) : List Byte × Nat :=
  ([BitVec.ofNat 8 (0x80 ||| ((i - j) >>> 5)),
    BitVec.ofNat 8 ((((i - j) &&& 0x1F) <<< 3) ||| (L - 3))], L)

/-- Where the policy finds a match, its back-reference is emitted (R124). -/
theorem emittedToken_of_match {policy : MatchPolicy} {raw : List Byte} {i j L : Nat}
    (h : policy (Memory.ofBytes raw) raw.length i = some (j, L)) (c : Byte) :
    emittedToken policy raw i c = brefToken i j L := by
  simp only [emittedToken, h, brefToken]

/-- Where it finds none, the literal family's token is (R111, R124). -/
theorem emittedToken_of_no_match {policy : MatchPolicy} {raw : List Byte} {i : Nat}
    (h : policy (Memory.ofBytes raw) raw.length i = none) (c : Byte) :
    emittedToken policy raw i c = literalToken raw i c := by
  simp only [emittedToken, h]

/-- The same in RAW itself. -/
theorem Buffer.emittedToken_of_match {policy : MatchPolicy} {raw : Memory} {rawLen i j L : Nat}
    (hb : Buffer raw rawLen) (h : policy raw rawLen i = some (j, L)) (c : Byte) :
    emittedToken policy (Memory.bytes raw) i c = brefToken i j L :=
  Machine.emittedToken_of_match (by rwa [hb.ofBytes_bytes, hb.length_bytes]) c

/-- A back-reference in range is the encoding of one token (R62, R105). -/
theorem brefToken_eq_encode {i j L : Nat} (h3 : 3 ≤ L) (h10 : L ≤ 10) (hd : i - j ≤ 2047) :
    (brefToken i j L).1 = encode (.bref (BitVec.ofNat 11 (i - j)) (BitVec.ofNat 3 (L - 3))) := by
  obtain ⟨hhigh, hlow⟩ := brefBytes_eq h3 h10 hd
  rw [brefToken, encode, hhigh, hlow]

end Sys2Proof.Machine
end

section
/-! PROOFS. The encoder's step: when it comes, its end, and the back-reference. -/

namespace Sys2Proof.Machine

open Sys2Proof

/-- Settles O50: an event names the block that moves; with none a stopped decoder leaves the step to the
encoder. -/
theorem encoderMovesWhenScheduled : Obligations.EncoderMovesWhenScheduled :=
  fun _ => ⟨fun _ => step_of_encoder_event, step_of_idle_decoder⟩

/-- Settles O56: the step that finds the cursor at the end writes the status only. -/
theorem encoderRunEndsDone : Obligations.EncoderRunEndsDone :=
  fun _ => encoderStep_of_le

/-- Settles O51: a match makes the token of R124 a back-reference, which stands for bytes inside RAW. -/
theorem emitBrefAppendsTheReference : Obligations.EmitBrefAppendsTheReference := by
  intro s j L hinv hrun hmatch
  obtain ⟨-, -, hin, -, -, -⟩ := refMatch_contract _ _ _ _ _ hinv.raw hmatch
  obtain ⟨-, hmargin, -⟩ := refMatch_range hmatch
  obtain ⟨c, hread⟩ := hinv.raw.read_isSome (a := s.enc.i) (by omega)
  have hc : (Memory.bytes s.enc.raw)[s.enc.i]? = some c := hinv.raw.read_eq s.enc.i ▸ hread
  have htok := hinv.raw.emittedToken_of_match hmatch c
  refine ⟨fun hfits => ?_, fun hfull => ?_⟩
  · obtain ⟨t, hstep, hdone⟩ := encoderStep_done hrun hinv.raw hc htok hfits
    have hi : t.enc.i = s.enc.i + L := hdone.1
    exact ⟨t, hstep, hi ▸ hin, hdone⟩
  · obtain ⟨t, hstep, hraise⟩ := encoderStep_raises hrun hinv.raw hc htok hfull
    exact ⟨t, c, hstep, hread, hraise⟩

end Sys2Proof.Machine
end

section
/-! SUPPORT. The loop of R124 case by case, its round trip, and the run of the encoder that computes it
(R97, R116, R118). -/

namespace Sys2Proof.Machine

open Sys2Proof

/-! ### The loop -/

section Loop

variable {policy : MatchPolicy} {cap : Option Nat} {raw code : List Byte} {i : Nat} {c : Byte}

theorem encodeLoop_of_none (h : raw[i]? = none) (fuel : Nat) :
    encodeLoop policy cap raw fuel i code = .ok code := by
  cases fuel with
  | zero => rfl
  | succ fuel => simp [encodeLoop, h]

theorem encodeLoop_of_fits {tok : List Byte × Nat} (hc : raw[i]? = some c)
    (htok : emittedToken policy raw i c = tok) (hfits : fits cap (code.length + tok.1.length) = true)
    (fuel : Nat) :
    encodeLoop policy cap raw (fuel + 1) i code =
      encodeLoop policy cap raw fuel (i + tok.2) (code ++ tok.1) := by
  simp [encodeLoop, hc, htok, hfits]

theorem encodeLoop_of_full {tok : List Byte × Nat} (hc : raw[i]? = some c)
    (htok : emittedToken policy raw i c = tok) (hfull : fits cap (code.length + tok.1.length) = false)
    (fuel : Nat) :
    encodeLoop policy cap raw (fuel + 1) i code =
      .error ⟨.outOfMemory, .none, i, code.length⟩ := by
  simp [encodeLoop, hc, htok, hfull]

/-- A token stands for at least one raw byte (R115, R116). -/
theorem StandsFor.pos {tok : List Byte × Nat} (h : StandsFor raw i tok) : 1 ≤ tok.2 := by
  obtain ⟨b, bs, hbytes, -⟩ := h.decodes
  have hratio := h.ratio
  rw [hbytes, List.length_cons] at hratio
  omega

/-- A token that follows a code of the raw bytes before the cursor makes a code of those behind it
(R118). -/
theorem StandsFor.decodeFn_append {tok : List Byte × Nat} (h : StandsFor raw i tok)
    (hcode : decodeFn none code = .ok (raw.take i)) :
    decodeFn none (code ++ tok.1) = .ok (raw.take (i + tok.2)) := by
  obtain ⟨b, bs, hbytes, hdecode⟩ := h.decodes
  rw [hbytes]
  exact decodeFn_append_token hcode (hdecode code)

/-- From a code of the raw bytes before the cursor the loop reaches a code of them all. -/
theorem encodeLoop_roundTrips (hpol : PolicyContract policy) (fuel : Nat) (hi : i ≤ raw.length)
    (hfuel : raw.length < fuel + i) (hcode : decodeFn none code = .ok (raw.take i)) :
    ∃ code', encodeLoop policy none raw fuel i code = .ok code' ∧ decodeFn none code' = .ok raw := by
  induction fuel generalizing i code with
  | zero => omega
  | succ fuel ih =>
    cases hc : raw[i]? with
    | none =>
      have hend := List.getElem?_eq_none_iff.1 hc
      rw [List.take_of_length_le hend] at hcode
      exact ⟨code, encodeLoop_of_none hc _, hcode⟩
    | some c =>
      have htok := standsFor_emittedToken hpol hc
      have hpos := htok.pos
      rw [encodeLoop_of_fits hc rfl rfl]
      exact ih htok.inside (by omega) (htok.decodeFn_append hcode)

end Loop

/-! ### The run of the encoder -/

/-- An encoder step writes the encoder only, with what `stepBody` answers. -/
theorem encoderStep_eq_answerEncoder (s : State) :
    encoderStep s = s.answerEncoder (s.enc.stepBody s.params) := by
  unfold encoderStep Encoder.stepBody
  split <;> rfl

/-- `n` steps of the encoder alone. -/
def Encoder.steps (p : Config.Params) : Nat → Encoder → Except Fault Encoder
  | 0, en => .ok en
  | n + 1, en => (en.stepBody p).bind (Encoder.steps p n)

section Steps

variable {p : Config.Params} {en en' : Encoder}

theorem Encoder.steps_succ_of_ok (h : en.stepBody p = .ok en') (n : Nat) :
    en.steps p (n + 1) = en'.steps p n := by
  rw [Encoder.steps, h]
  rfl

/-- A stopped encoder takes no further step (R145). -/
theorem Encoder.steps_of_stopped (h : en.port.status ≠ .run) (n : Nat) : en.steps p n = .ok en := by
  induction n with
  | zero => rfl
  | succ n ih => rw [Encoder.steps_succ_of_ok (if_neg h), ih]

/-- From a good running encoder at least as many steps as bytes are left, and one more, end the call with
what the loop of R124 answers from there (R116). -/
theorem EncInv.steps_compute_encodeLoop (fuel : Nat) {k : Nat} (hinv : EncInv p en)
    (hrun : en.port.status = .run) (hfuel : en.rawLen < fuel + en.i) (hk : en.rawLen < k + en.i) :
    ∃ en', en.steps p k = .ok en' ∧
      EncodeAnswer en' (encodeLoop refMatch p.codeCap (Memory.bytes en.raw) fuel en.i
        (Memory.bytes en.code)) := by
  induction fuel generalizing en k with
  | zero =>
    have := hinv.cursor
    omega
  | succ fuel ih =>
    have hlen := hinv.raw.length_bytes
    have hcodeLen := hinv.code.length_bytes
    obtain ⟨k, rfl⟩ : ∃ k', k = k' + 1 := ⟨k - 1, by have := hinv.cursor; omega⟩
    cases hc : (Memory.bytes en.raw)[en.i]? with
    | none =>
      have hend := List.getElem?_eq_none_iff.1 hc
      have hstep : en.stepBody p = .ok en.finish := by
        rw [Encoder.stepBody, if_pos hrun, Encoder.stepWith, if_pos (by omega)]
      have hstop : en.finish.port.status ≠ .run := nofun
      rw [encodeLoop_of_none hc, Encoder.steps_succ_of_ok hstep]
      exact ⟨_, Encoder.steps_of_stopped hstop k, rfl,
        Port.readResult_of_done hinv.code rfl⟩
    | some c =>
      obtain ⟨r, n, hstep⟩ := Encoder.stepWith_eq_afterToken (p := p) refMatch_contract hinv.raw hc
      have htok := standsFor_emittedToken refMatch_contract hc
      have hpos := htok.pos
      generalize hemit : emittedToken refMatch (Memory.bytes en.raw) en.i c = tok at hstep htok hpos
      replace hstep : en.stepBody p = .ok (en.afterToken p tok c r n) := (if_pos hrun).trans hstep
      rw [Encoder.steps_succ_of_ok hstep, Encoder.afterToken]
      cases hfits : fits p.codeCap (en.e + tok.1.length) with
      | false =>
        have hstop : (en.afterFull c r n).port.status ≠ .run := nofun
        rw [encodeLoop_of_full hc hemit (hcodeLen.symm ▸ hfits), if_neg Bool.false_ne_true]
        exact ⟨_, Encoder.steps_of_stopped hstop k, rfl, rfl, rfl, rfl, hcodeLen.symm, rfl⟩
      | true =>
        have hbytes : Memory.bytes (en.afterEmit tok r n).code = Memory.bytes en.code ++ tok.1 :=
          hinv.code.bytes_writeAll tok.1
        rw [encodeLoop_of_fits hc hemit (hcodeLen.symm ▸ hfits), if_pos rfl, ← hbytes]
        exact ih (hinv.afterEmit hrun htok hfits r n) hrun
          (show en.rawLen < fuel + (en.i + tok.2) by omega)
          (show en.rawLen < k + (en.i + tok.2) by omega)

/-- While the schedule gives each step of the machine to the encoder, the machine makes the encoder's
steps. -/
theorem runSteps_of_encoderSteps {schedule : Nat → List Event} {d : Decoder}
    (hmoves : ∀ n (s : State), s.dec = d → s.schedule = schedule (n + 1) →
      step s = encoderStep { s with schedule := schedule n })
    (k : Nat) {s : State} (hdec : s.dec = d) (hsched : s.schedule = schedule k)
    (hsteps : s.enc.steps s.params k = .ok en') :
    runSteps k s = .next { s with enc := en', schedule := schedule 0 } := by
  induction k generalizing s with
  | zero =>
    cases hsteps
    rw [← hsched]
    rfl
  | succ k ih =>
    obtain ⟨en1, hbody, hrest⟩ := bind_ok hsteps
    have hstep : step s = .next { s with enc := en1, schedule := schedule k } := by
      rw [hmoves k s hdec hsched, encoderStep_eq_answerEncoder, hbody, State.answerEncoder_ok]
    rw [runSteps_succ_of_step hstep]
    exact ih hdec rfl hrest

/-- START that is not refused launches the call (R25). -/
theorem step_launches_encoder {s : State} {buffer : List Byte} {rest : List Event}
    (hstop : s.enc.port.status ≠ .run)
    (hok : launchOk s.params s.params.codeCap buffer.length = true)
    (hsched : s.schedule = .start .encoder buffer :: rest) :
    step s = .next { s with enc := .launched buffer s.enc.draws, schedule := rest } := by
  simp [step_of_schedule hsched, runEvent, hostStart, Encoder.start_of_launchOk hstop hok]

/-- A launched call computes R124 in `len(buffer) + 1` steps (R97, R116); more leave it alone. -/
theorem Encoder.launched_steps_compute_encodeFn {buffer : List Byte} {k : Nat}
    (hok : launchOk p p.codeCap buffer.length = true) (n : Nat) (hk : buffer.length + 1 ≤ k) :
    ∃ en', (Encoder.launched buffer n).steps p k = .ok en' ∧
      EncodeAnswer en' (encodeFn p.codeCap buffer) := by
  have hrun := (encInv_launched hok n).steps_compute_encodeLoop (buffer.length + 1) (k := k) rfl
    (Nat.lt_succ_self _) hk
  have hraw : Memory.bytes (Encoder.launched buffer n).raw = buffer := Memory.bytes_ofBytes buffer
  rwa [hraw] at hrun

end Steps

end Sys2Proof.Machine
end

section
/-! PROOFS. The encoder as a function: its call computes R124, its tokens are in range, and the decoder
takes its result back. -/

namespace Sys2Proof.Machine

open Sys2Proof

/-- Settles O41: START makes a good running encoder, whose steps compute the loop of R124 from its start;
both schedules give those steps to it. -/
theorem encoderComputesEncode : Obligations.EncoderComputesEncode := by
  intro s buffer hstop hok
  refine ⟨fun k rest hk hsched => ?_, fun hsched hdec => ?_⟩
  · obtain ⟨en', hsteps, hans⟩ := Encoder.launched_steps_compute_encodeFn hok s.enc.draws hk
    have hstart := step_launches_encoder hstop hok hsched
    exact ⟨_, (runSteps_succ_of_step hstart k).trans
      (runSteps_of_encoderSteps (schedule := fun n => List.replicate n .encoder ++ rest)
        (fun _ _ _ => step_of_encoder_event) k rfl rfl hsteps), rfl, rfl, hans⟩
  · obtain ⟨en', hsteps, hans⟩ := Encoder.launched_steps_compute_encodeFn hok s.enc.draws le_rfl
    have hstart := step_launches_encoder hstop hok hsched
    have hmoves : ∀ (_ : Nat) (t : State), t.dec = s.dec → t.schedule = [] →
        step t = encoderStep { t with schedule := [] } := fun _ t ht hempty => by
      rw [step_of_idle_decoder hempty (ht ▸ hdec), ← hempty]
    exact ⟨_, _, le_rfl, (runSteps_succ_of_step hstart _).trans
      (runSteps_of_encoderSteps (schedule := fun _ => []) hmoves _ rfl rfl hsteps), rfl, hans⟩

/-- Settles O42: the code emitted so far always decodes to the raw bytes before the cursor. -/
theorem everyConformingEncoderRoundTrips : Obligations.EveryConformingEncoderRoundTrips :=
  fun _ hpol raw =>
    encodeLoop_roundTrips hpol (raw.length + 1) (Nat.zero_le _) (Nat.lt_succ_self _) rfl

/-- Settles O46: a match is a back-reference in range, and each token of the literal family is of the kind
its first byte selects. -/
theorem emittedTokensStayInRange : Obligations.EmittedTokensStayInRange := by
  intro raw i c hc
  cases hmatch : refMatch (Memory.ofBytes raw) raw.length i with
  | some m =>
    obtain ⟨j, L⟩ := m
    obtain ⟨-, -, h3, h10, hbefore, hlow⟩ := refMatch_range hmatch
    have hdist : (BitVec.ofNat 11 (i - j)).toNat = i - j := by simp; omega
    have hlen : lengthOf (BitVec.ofNat 3 (L - 3)) = L := by simp [lengthOf]; omega
    have hbytes := brefToken_eq_encode (i := i) (j := j) h3 h10 (by omega)
    refine ⟨.bref (BitVec.ofNat 11 (i - j)) (BitVec.ofNat 3 (L - 3)), ?_, rfl, ?_⟩
    · rw [emittedToken_of_match hmatch, hbytes]
      exact decode_eq_ok_iff.2 ⟨rfl, List.append_nil _⟩
    · dsimp only
      omega
  | none =>
    rw [emittedToken_of_no_match hmatch]
    rcases literalToken_cases raw i c with ⟨n, -, -, hp, htok⟩ | ⟨hp, htok, -⟩ | ⟨hp, htok⟩ <;>
      rw [htok]
    · exact ⟨.spair (fieldQ (n ^^^ 0x80#8)), decode_of_spairByte [] (flip_of_pairchar hp), rfl, trivial⟩
    · have hbyte := plain_true.1 hp
      exact ⟨.lit c, decode_of_litByte [] hbyte, Instr.litByteOk_iff.2 hbyte, hp⟩
    · obtain ⟨h8, hplain, -, -⟩ := runBytes_spec raw i
      have h1 : 1 ≤ (runBytes raw i).length := by simp [runBytes_cons hc hp]
      have hwf : (Instr.run (runBytes raw i)).wf = true := Instr.runCountOk_iff.2 ⟨h1, h8⟩
      exact ⟨.run (runBytes raw i), decode_eq_ok_iff.2 ⟨hwf, List.append_nil _⟩, hwf, h1, h8, hplain⟩

end Sys2Proof.Machine
end

section
/-! SUPPORT. The literal family by the bytes at the cursor (R111 to R114), and the step of a running
encoder whose search finds no match. -/

namespace Sys2Proof.Machine

open Sys2Proof

/-! ### The family, read by read -/

section Family

variable {p : Config.Params} {en : Encoder} {c n : Byte}

/-- Emitting a token needs of RAW only the byte at the cursor, for the error's record (R132, R134). -/
theorem Encoder.emit_of_rawRead (hread : en.rawRead en.i = .ok c) (token : List Byte) (adv : Nat)
    (r : EncLatches) :
    ({ en with latch := r } : Encoder).emit p token adv =
      .ok (en.afterToken p (token, adv) c r en.draws) := by
  have hread' : ({ en with latch := r } : Encoder).rawRead en.i = .ok c := hread
  rw [Encoder.emit_eq, hread']
  unfold Encoder.afterToken
  split <;> rfl

/-- The first test of R111 reads the next byte only behind a space. -/
theorem Encoder.pairAhead_of_space (hn : en.i + 1 < en.rawLen)
    (hnext : Memory.read en.raw (en.i + 1) = some n) :
    en.pairAhead Config.space = .ok (pairchar n) := by
  have hread : en.rawRead (en.i + 1) = .ok n := readBelow_eq hn hnext
  rw [Encoder.pairAhead, if_pos ⟨rfl, hn⟩, hread]
  rfl

/-- A byte that starts no space pair fails the first test of R111. -/
theorem Encoder.pairAhead_of_no_pair
    (hno : c = Config.space → en.i + 1 < en.rawLen →
      ∃ n, Memory.read en.raw (en.i + 1) = some n ∧ pairchar n = false) :
    en.pairAhead c = .ok false := by
  by_cases hspace : c = Config.space ∧ en.i + 1 < en.rawLen
  · obtain ⟨rfl, hn⟩ := hspace
    obtain ⟨n, hnext, hp⟩ := hno rfl hn
    rw [Encoder.pairAhead_of_space hn hnext, hp]
  · exact if_neg hspace

/-- A space and a pair character after it are emitted as a space pair (R112). -/
theorem Encoder.literalFamily_of_pair (hn : en.i + 1 < en.rawLen)
    (hspace : Memory.read en.raw en.i = some Config.space)
    (hnext : Memory.read en.raw (en.i + 1) = some n) (hp : pairchar n = true) (r : EncLatches) :
    ({ en with latch := r } : Encoder).literalFamily p =
      .ok (en.afterToken p ([n ^^^ 0x80#8], 2) Config.space { r with n := n } en.draws) := by
  have hi : en.i < en.rawLen := by omega
  have hread : ({ en with latch := r } : Encoder).rawRead en.i = .ok Config.space :=
    readBelow_eq hi hspace
  have hreadNext : ({ en with latch := r } : Encoder).rawRead (en.i + 1) = .ok n :=
    readBelow_eq hn hnext
  have hpair : ({ en with latch := r } : Encoder).pairAhead Config.space = .ok true :=
    hp ▸ Encoder.pairAhead_of_space (en := { en with latch := r }) hn hnext
  rw [← Encoder.emit_of_rawRead (readBelow_eq hi hspace)]
  simp only [Encoder.literalFamily, Encoder.emitSpair, hread, hreadNext, hpair, Except.bind,
    ↓reduceIte]
  rfl

/-- A plain byte that starts no space pair is emitted as it is (R113). -/
theorem Encoder.literalFamily_of_plain (hi : en.i < en.rawLen)
    (hc : Memory.read en.raw en.i = some c) (hp : plain c = true)
    (hno : c = Config.space → en.i + 1 < en.rawLen →
      ∃ n, Memory.read en.raw (en.i + 1) = some n ∧ pairchar n = false) (r : EncLatches) :
    ({ en with latch := r } : Encoder).literalFamily p =
      .ok (en.afterToken p ([c], 1) c r en.draws) := by
  have hread : ({ en with latch := r } : Encoder).rawRead en.i = .ok c := readBelow_eq hi hc
  have hpair : ({ en with latch := r } : Encoder).pairAhead c = .ok false :=
    Encoder.pairAhead_of_no_pair (en := { en with latch := r }) hno
  rw [← Encoder.emit_of_rawRead (readBelow_eq hi hc)]
  simp only [Encoder.literalFamily, Encoder.emitLit, hread, hpair, hp, Except.bind,
    Bool.false_eq_true, ↓reduceIte]

/-- A search without a match leaves the step to the literal family (R98, R111). -/
theorem Encoder.stepWith_of_no_match {policy : MatchPolicy} (hi : en.i < en.rawLen)
    (hm : policy en.raw en.rawLen en.i = none) :
    en.stepWith policy p =
      (({ en with latch := { en.latch with found := false } } : Encoder).literalFamily p).map
        Encoder.release := by
  simp [Encoder.stepWith, Encoder.search, hm, Nat.not_le.2 hi]

end Family

/-! ### The step -/

section NoMatch

variable {s : State} {c : Byte} {tok : List Byte × Nat}

/-- A step that ends with a token emits it where it fits and else raises OutOfMemory (R132). -/
theorem encoderStep_of_afterToken {r : EncLatches} {n : Nat}
    (hstep : encoderStep s = .next { s with enc := s.enc.afterToken s.params tok c r n }) :
    (fits s.params.codeCap (s.enc.e + tok.1.length) = true →
      ∃ t, encoderStep s = .next t ∧ EmissionDone s t tok.2 tok.1) ∧
    (fits s.params.codeCap (s.enc.e + tok.1.length) = false →
      ∃ t, encoderStep s = .next t ∧ EmissionRaises s t c) := by
  unfold Encoder.afterToken at hstep
  refine ⟨fun hfits => ?_, fun hfull => ?_⟩
  · rw [if_pos hfits] at hstep
    exact ⟨_, hstep, emissionDone_afterEmit s tok r n⟩
  · rw [if_neg (Bool.eq_false_iff.1 hfull)] at hstep
    exact ⟨_, hstep, emissionRaises_afterFull s c r n⟩

/-- Without a match the step ends with the literal family's token. -/
theorem encoderStep_of_literalFamily (hrun : s.enc.port.status = .run)
    (hm : refMatch s.enc.raw s.enc.rawLen s.enc.i = none) (hi : s.enc.i < s.enc.rawLen)
    {r : EncLatches}
    (hfamily : ({ s.enc with latch := { s.enc.latch with found := false } } : Encoder).literalFamily
      s.params = .ok (s.enc.afterToken s.params tok c r s.enc.draws)) :
    encoderStep s = .next { s with
      enc := s.enc.afterToken s.params tok c (Config.freeEncLatches s.enc.draws)
        (s.enc.draws + 1) } := by
  rw [encoderStep, if_pos hrun, Encoder.stepWith_of_no_match hi hm, hfamily, Except.map,
    Encoder.afterToken_release, State.answerEncoder_ok]

end NoMatch

/-! ### The binary run -/

/-- A byte that is not plain starts a binary run (R111). -/
theorem literalToken_of_not_plain {raw : List Byte} {i : Nat} {c : Byte} (hp : plain c = false) :
    literalToken raw i c =
      (BitVec.ofNat 8 (runBytes raw i).length :: runBytes raw i, (runBytes raw i).length) := by
  rcases literalToken_cases raw i c with ⟨n, -, rfl, -⟩ | ⟨hp', -⟩ | ⟨-, htok⟩
  · exact absurd hp (by decide)
  · exact absurd (hp.symm.trans hp') Bool.false_ne_true
  · exact htok

/-- The bytes that a memory holds are the front of its sequence from there on. -/
theorem Buffer.bytes_drop_of_holdsAt {m : Memory} {len a : Nat} {bs : List Byte}
    (hb : Buffer m len) (hholds : HoldsAt m a bs) :
    (Memory.bytes m).drop a = bs ++ (Memory.bytes m).drop (a + bs.length) := by
  have hprefix : bs <+: (Memory.bytes m).drop a :=
    List.prefix_iff_getElem?.2 fun k hk => by
      rw [List.getElem?_drop, ← hb.read_eq, hholds k hk, List.getElem?_eq_getElem hk]
  obtain ⟨rest, hrest⟩ := hprefix
  rw [← List.drop_drop, ← hrest, List.drop_left]

/-- Bytes that are not plain, cut to 8 or with the end of RAW or a plain byte after them, are the whole
binary run (R114). -/
theorem runBytes_eq_of_maximal {raw payload : List Byte} {i : Nat}
    (hfront : raw.drop i = payload ++ raw.drop (i + payload.length)) (h8 : payload.length ≤ 8)
    (hplain : ∀ b ∈ payload, plain b = false)
    (hstop : payload.length = 8 ∨ i + payload.length = raw.length ∨
      ∃ b, raw[i + payload.length]? = some b ∧ plain b = true) :
    runBytes raw i = payload := by
  have hrest : ((raw.drop (i + payload.length)).take (8 - payload.length)).takeWhile
      (fun b => !plain b) = [] := by
    rcases hstop with hcut | hend | ⟨b, hb, hp⟩
    · simp [hcut]
    · simp [hend]
    · obtain ⟨hlt, rfl⟩ := List.getElem?_eq_some_iff.1 hb
      rw [List.drop_eq_getElem_cons hlt]
      cases 8 - payload.length with
      | zero => rfl
      | succ k => simp [hp]
  rw [runBytes, hfront, Config.runMax, List.take_append, List.take_of_length_le h8,
    List.takeWhile_append_of_pos (by simpa using hplain), hrest, List.append_nil]

/-- The token of R124 at a binary run in RAW, where the search finds no match. -/
theorem Buffer.emittedToken_of_run {raw : Memory} {rawLen i : Nat} {payload : List Byte} {c : Byte}
    (hb : Buffer raw rawLen) (hm : refMatch raw rawLen i = none) (hp : plain c = false)
    (hrun : runBytes (Memory.bytes raw) i = payload) :
    emittedToken refMatch (Memory.bytes raw) i c =
      (BitVec.ofNat 8 payload.length :: payload, payload.length) := by
  rw [emittedToken_of_no_match (by rwa [hb.ofBytes_bytes, hb.length_bytes]),
    literalToken_of_not_plain hp, hrun]

end Sys2Proof.Machine
end

section
/-! PROOFS. The literal family's emissions: the space pair, the literal and the binary run. -/

namespace Sys2Proof.Machine

open Sys2Proof

/-- Settles O52: the space pair passes the first test of the literal family. -/
theorem emitSpairAppendsThePair : Obligations.EmitSpairAppendsThePair := by
  intro s n hrun hm hn hspace hnext hp
  have hi : s.enc.i < s.enc.rawLen := by omega
  exact encoderStep_of_afterToken (encoderStep_of_literalFamily hrun hm hi
    (Encoder.literalFamily_of_pair hn hspace hnext hp _))

/-- Settles O53: a plain byte that starts no space pair passes the second test. -/
theorem emitLitAppendsTheByte : Obligations.EmitLitAppendsTheByte := by
  intro s c hrun hm hi hc hp hno
  exact encoderStep_of_afterToken (encoderStep_of_literalFamily hrun hm hi
    (Encoder.literalFamily_of_plain hi hc hp hno _))

/-- Settles O54: the payload is the whole binary run at the cursor, so its token is the one of R124. -/
theorem emitRunAppendsTheRun : Obligations.EmitRunAppendsTheRun := by
  intro s payload hinv hrun hm h1 h8 hholds _ hplain hstop
  have hraw := hinv.raw
  rw [← hraw.length_bytes, hraw.read_eq] at hstop
  have hbytes := runBytes_eq_of_maximal (hraw.bytes_drop_of_holdsAt hholds) h8 hplain hstop
  obtain ⟨c, hfirst⟩ : ∃ c, payload[0]? = some c := ⟨_, List.getElem?_eq_getElem h1⟩
  have hc : (Memory.bytes s.enc.raw)[s.enc.i]? = some c := by
    rw [← hraw.read_eq, ← hfirst]
    exact hholds 0 h1
  have htok := hraw.emittedToken_of_run hm (hplain c (List.mem_of_getElem? hfirst)) hbytes
  rw [Nat.add_assoc, Nat.add_comm 1]
  refine ⟨encoderStep_done hrun hraw hc htok, fun hfull => ?_⟩
  obtain ⟨t, hstep, hraise⟩ := encoderStep_raises hrun hraw hc htok hfull
  exact ⟨t, c, hstep, hfirst, hraise⟩

end Sys2Proof.Machine
end

section
/-! SUPPORT. Two runs of the loop of R124: its size (R117), and plain text without pairs and matches
(R121). -/

namespace Sys2Proof.Machine

open Sys2Proof

section Loop

variable {policy : MatchPolicy} {cap : Option Nat} {raw code : List Byte} {i : Nat}

/-- From a code at most twice the bytes before the cursor the loop ends with one at most twice them all,
when that much fits: each token is at most twice the bytes it stands for (R117). -/
theorem encodeLoop_atMostDoubles (hpol : PolicyContract policy) (fuel : Nat) (hi : i ≤ raw.length)
    (hcap : fits cap (2 * raw.length) = true) (hcode : code.length ≤ 2 * i) :
    ∃ code', encodeLoop policy cap raw fuel i code = .ok code' ∧
      code'.length ≤ 2 * raw.length := by
  induction fuel generalizing i code with
  | zero => exact ⟨code, rfl, by omega⟩
  | succ fuel ih =>
    cases hc : raw[i]? with
    | none => exact ⟨code, encodeLoop_of_none hc _, by omega⟩
    | some c =>
      obtain ⟨hinside, hratio, -⟩ := standsFor_emittedToken hpol hc
      rw [encodeLoop_of_fits hc rfl (fits_mono hcap (by omega))]
      exact ih hinside (by rw [List.length_append]; omega)

/-- A plain byte that is no space before a pair character is its own token (R113). -/
theorem literalToken_of_plain {c : Byte} (hp : plain c = true)
    (hno : c = Config.space → ∀ n, raw[i + 1]? = some n → pairchar n = false) :
    literalToken raw i c = ([c], 1) := by
  rcases literalToken_cases raw i c with ⟨n, hn, hspace, hpair, -⟩ | ⟨-, htok, -⟩ | ⟨hp', -⟩
  · exact absurd ((hno hspace n hn).symm.trans hpair) Bool.false_ne_true
  · exact htok
  · exact absurd (hp'.symm.trans hp) Bool.false_ne_true

/-- Where every token is the raw byte at the cursor, the loop copies RAW (R121). -/
theorem encodeLoop_copies (htok : ∀ i c, raw[i]? = some c → emittedToken policy raw i c = ([c], 1))
    (fuel : Nat) (hfuel : raw.length < fuel + i) :
    encodeLoop policy none raw fuel i (raw.take i) = .ok raw := by
  induction fuel generalizing i with
  | zero => rw [encodeLoop, List.take_of_length_le (by omega)]
  | succ fuel ih =>
    cases hc : raw[i]? with
    | none =>
      rw [encodeLoop_of_none hc, List.take_of_length_le (List.getElem?_eq_none_iff.1 hc)]
    | some c =>
      have htake : raw.take i ++ [c] = raw.take (i + 1) := by simp [List.take_add_one, hc]
      rw [encodeLoop_of_fits hc (htok i c hc) rfl, htake]
      exact ih (by omega)

end Loop

end Sys2Proof.Machine
end

section
/-! PROOFS. The encoder as a function: its size, and the text it passes through. -/

namespace Sys2Proof.Machine

open Sys2Proof

/-- Settles O43: the loop keeps the code at most twice the bytes before the cursor. -/
theorem encodingAtMostDoubles : Obligations.EncodingAtMostDoubles :=
  fun raw _ hcap =>
    encodeLoop_atMostDoubles refMatch_contract (raw.length + 1) (Nat.zero_le _) hcap le_rfl

/-- Settles O45: without a match each token is the literal family's, and that is the byte itself. -/
theorem plainTextPassesThrough : Obligations.PlainTextPassesThrough := by
  intro raw hplain hno hm
  refine encodeLoop_copies (i := 0) (fun i c hc => ?_) (raw.length + 1) (Nat.lt_succ_self _)
  obtain ⟨hlt, -⟩ := List.getElem?_eq_some_iff.1 hc
  rw [emittedToken_of_no_match (hm i hlt)]
  exact literalToken_of_plain (hplain c (List.mem_of_getElem? hc)) fun hspace n =>
    hno i n (hc.trans (congrArg some hspace))

end Sys2Proof.Machine
end

section
/-! SUPPORT. Exceptions: the step that meets a truncated token (R66, R129, R130), and what the
encoder's own step makes of its error (R24). -/

namespace Sys2Proof.Machine

open Sys2Proof

/-- A token that the end of the buffer cuts short raises its truncation, the first byte alone consumed
(R66; log entry 14). -/
theorem decoderStep_raises_of_truncated {s : State} {c : Byte} {cause : Cause}
    (hrun : s.dec.port.status = .run) (hi : s.dec.i < s.dec.inLen)
    (hread : Memory.read s.dec.input s.dec.i = some c)
    (hcut : s.dec.inLen < s.dec.i + tokenLength c)
    (hbody : s.dec.fetchedBody s.params [c] = .ok (s.dec.raiseTruncated cause c)) :
    ∃ t, decoderStep s = .next t ∧ TokenRaises s t .corruptStream cause c ∧
      t.dec.i = s.dec.i + 1 := by
  have hrunBody : s.dec.fetchAndRun s.params = .ok (s.dec.raiseTruncated cause c) := by
    rw [Decoder.fetchAndRun, Decoder.fetch_of_truncated hread hi hcut]
    exact hbody
  refine ⟨_, by rw [decoderStep_of_lt hrun hi, hrunBody, State.answerDecoder_ok], ?_, rfl⟩
  exact tokenRaises_afterRaise s 1 .corruptStream cause c { s.dec.latch with c := c }

/-- A count byte with no payload behind it is a truncated RUN (R129). -/
theorem Decoder.fetchedBody_of_runByte {c : Byte} (h : 1 ≤ c.toNat ∧ c.toNat ≤ 8)
    (p : Config.Params) (d : Decoder) :
    d.fetchedBody p [c] = .ok (d.raiseTruncated .truncRun c) := by
  have hdecode : decode [c] = .error (.truncRun c) :=
    (decode_of_runByte [] h).trans (decodeRun_of_lt h.1)
  simp only [Decoder.fetchedBody, hdecode]

/-- The first byte of a back-reference alone is a truncated BREF (R130). -/
theorem Decoder.fetchedBody_of_brefByte {c : Byte} (h : 0x80 ≤ c.toNat ∧ c.toNat ≤ 0xBF)
    (p : Config.Params) (d : Decoder) :
    d.fetchedBody p [c] = .ok (d.raiseTruncated .truncBref c) := by
  have hdecode : decode [c] = .error (.truncBref c) := (decode_of_brefByte [] h).trans rfl
  simp only [Decoder.fetchedBody, hdecode]

/-- The encoder's own step leaves `err`, or raises OutOfMemory (R24, R132). -/
theorem Encoder.stepWith_err_cases {policy : MatchPolicy} {p : Config.Params} {en en' : Encoder}
    (h : en.stepWith policy p = .ok en') :
    en'.port.err = en.port.err ∨ en'.port.err = .outOfMemory := by
  rcases Encoder.stepWith_cases h with
    ⟨-, rfl⟩ | ⟨-, ⟨token, adv, -, r, n, rfl⟩ | ⟨first, r, n, rfl⟩⟩
  · exact .inl rfl
  · exact .inl rfl
  · exact .inr rfl

end Sys2Proof.Machine
end

section
/-! PROOFS. Exceptions: tokens are atomic, truncated tokens raise where they are met, a stopped block
stays as it is, and the encoder's one error is OutOfMemory. -/

namespace Sys2Proof.Machine

open Sys2Proof

/-- Settles O20: a token appends all its output above the old `o`, or raises and leaves OUT. -/
theorem tokensAppendAllOrNothing : Obligations.TokensAppendAllOrNothing := by
  intro i s t h
  obtain ⟨d', rfl, ⟨bs, hlen, r, rfl, -, -⟩ |
    ⟨k, -, err, cause, first, r, herr, -, -, rfl⟩⟩ := exec_cases h
  · exact .inl ⟨rfl, congrArg (s.dec.o + ·) hlen, fun _ ha => read_writeAll_below bs ha⟩
  · exact .inr ⟨rfl, herr, rfl, rfl, rfl, rfl⟩

/-- Settles O24: fewer bytes remain than the count byte claims, so the token is cut short. -/
theorem truncatedRunRaises : Obligations.TruncatedRunRaises := by
  intro s c hrun hsched hi hread h1 h8 hshort
  have hcut : s.dec.inLen < s.dec.i + tokenLength c := by
    rw [tokenLength_of_runByte ⟨h1, h8⟩]
    omega
  rw [step_of_idle_schedule hsched hrun]
  exact decoderStep_raises_of_truncated hrun hi hread hcut
    (Decoder.fetchedBody_of_runByte ⟨h1, h8⟩ _ _)

/-- Settles O25: a token of two bytes at the last byte of the buffer is cut short. -/
theorem truncatedBrefRaises : Obligations.TruncatedBrefRaises := by
  intro s c hrun hsched hlast hread hlow hhigh
  have hcut : s.dec.inLen < s.dec.i + tokenLength c := by
    rw [tokenLength_of_brefByte ⟨hlow, hhigh⟩]
    omega
  rw [step_of_idle_schedule hsched hrun]
  exact decoderStep_raises_of_truncated hrun (by omega) hread hcut
    (Decoder.fetchedBody_of_brefByte ⟨hlow, hhigh⟩ _ _)

/-- Settles O26: of a block's transitions two are host commands and one needs status RUN; what is left
keeps it. -/
theorem stoppedBlocksKeepTheirState : Obligations.StoppedBlocksKeepTheirState := by
  intro s t h
  refine ⟨fun hstop hstart hreset => ?_, fun hstop hstart hreset => ?_⟩
  · cases step_decoderTransition h with
    | kept heq => exact heq
    | launch buffer rest hs => exact absurd hs (hstart buffer rest)
    | reset rest hs => exact absurd hs (hreset rest)
    | step _ hrun => exact absurd hrun hstop
  · cases step_encoderTransition h with
    | kept heq => exact heq
    | launch buffer rest hs => exact absurd hs (hstart buffer rest)
    | reset rest hs => exact absurd hs (hreset rest)
    | step _ hrun => exact absurd hrun hstop

/-- Settles O55: the encoder's step at the raw byte `c` is the token of R124, here without room. -/
theorem encoderRaisesWhenFull : Obligations.EncoderRaisesWhenFull := by
  intro s c hinv hrun _ hread hfull
  exact encoderStep_raises hrun hinv.raw (hinv.raw.read_eq s.enc.i ▸ hread) rfl hfull

/-- Settles O57: the two commands clear `err`, and the encoder's own step leaves it or raises
OutOfMemory. -/
theorem encoderNeverCorrupt : Obligations.EncoderNeverCorrupt := by
  intro s t hne h
  cases step_encoderTransition h with
  | kept heq => exact heq ▸ hne
  | launch buffer rest _ _ heq => exact heq ▸ nofun
  | reset rest _ heq => exact heq ▸ nofun
  | step _ _ hstep =>
    rcases Encoder.stepWith_err_cases hstep with herr | herr
    · exact herr ▸ hne
    · exact herr ▸ nofun

end Sys2Proof.Machine
end
